-- ==== Sys2Proof/Config.lean ====
section
/-!
DEFINITION. The implementation parameters of `fetch_unit` (spec/00_scope.md R4). Each is a constant: "None is
configurable in the hardware". This hardware leaves no value open, so there is no free value here.
-/

namespace Sys2Proof.Config

/-- XLEN: width in bits of a general register (R4). -/
def xlen : Nat := 8

/-- NREGS: number of general registers, indices 0 to 7 (R4). -/
def nRegs : Nat := 8

/-- MEM_CELLS: number of memory cells, addresses 0 to 255 (R4). -/
def memCells : Nat := 256

/-- CELL_BITS: width in bits of a memory cell (R4). -/
def cellBits : Nat := 8

/-- ADDR_BITS: width of a memory address on the memory port (R4). -/
def addrBits : Nat := 8

/-- PC_BITS: width of the program counter (R4, decision D4). -/
def pcBits : Nat := 9

/-- SP_BITS: width of the stack pointer (R4, decision D5). -/
def spBits : Nat := 8

/-- NFLAGS: the condition flags E, L, G (R4). -/
def nFlags : Nat := 3

/-- FETCH_BYTES: memory cells read by every fetch (R4). -/
def fetchBytes : Nat := 3

/-- MAX_FETCH_PC: the largest `pc` at which a fetch does not fault, 253 (R4, R71). -/
def maxFetchPc : Nat := memCells - fetchBytes

/-- NOPCODES: opcode byte values that have a table entry (R4). -/
def nOpcodes : Nat := 13

/-- CMP_STICKY: whether CMP leaves the flags it does not set unchanged (R4, R139, decision D7). False here;
what `true` would mean is written out in `Machine/Flags.lean`. UNVERIFIED against the source's reference program:
log entry 6. Unsafe for an implementation that keeps the flags. -/
def cmpSticky : Bool := false

end Sys2Proof.Config
end

