-- ==== Sys2Proof/Word.lean ====
section
/-!
DEFINITION. The machine's words (spec/00_scope.md R4 to R8). Everything is an unsigned bit vector (R5).
-/

namespace Sys2Proof

/-- An 8-bit value: a general register, a memory cell, the stack pointer, an operand byte (R4, R11, R30). -/
abbrev Byte := BitVec 8

/-- An 8-bit address on the memory port, 0 to 255 (R30, R32). -/
abbrev Addr := BitVec 8

/-- A 9-bit value of the program counter; it holds 256 exactly (R14). -/
abbrev Pc := BitVec 9

/-- A legal register index, 0 to 7 (R11). -/
abbrev RegIdx := Fin 8

/-- `zext_9` of R8: an 8-bit value extended with a zero bit on the left. -/
abbrev zext9 (v : Byte) : Pc := v.setWidth 9

/-- The low 8 bits of a program counter value, `v[7:0]` of R6. -/
abbrev low8 (v : Pc) : Byte := v.setWidth 8

end Sys2Proof
end

