-- ==== Sys2Proof/Syntax.lean ====
section
/-!
DEFINITION. The instructions: one constructor per row of spec/opcode_table.json (spec/30_encoding.md R50, R55).
A register operand is kept as the whole operand byte, because a byte above 7 is not an illegal encoding: it decodes
and then faults (R52, R58). Bytes a format ignores are not part of the instruction (R54). Log entry 10.
-/

namespace Sys2Proof

/-- One instruction with the operand bytes its format uses. -/
inductive Instr where
  /-- HLT, format Z (R90). -/
  | hlt
  /-- RET, format Z (R113). -/
  | ret
  /-- PUSH, format R: `a` is the register index (R100). -/
  | push (a : Byte)
  /-- POP, format R (R102). -/
  | pop (a : Byte)
  /-- PRN, format R (R92). -/
  | prn (a : Byte)
  /-- CALL, format R (R110). -/
  | call (a : Byte)
  /-- JMP, format R (R116). -/
  | jmp (a : Byte)
  /-- JEQ, format R (R118). -/
  | jeq (a : Byte)
  /-- JNE, format R (R120). -/
  | jne (a : Byte)
  /-- LDI, format RI: register index and immediate (R130, R53). -/
  | ldi (a : Byte) (imm : Byte)
  /-- ADD, format RR: two register indices (R135). -/
  | add (a b : Byte)
  /-- MUL, format RR (R137). -/
  | mul (a b : Byte)
  /-- CMP, format RR (R139). -/
  | cmp (a b : Byte)
deriving DecidableEq, Repr

/-- The instruction kind the decoder hands on: one of the 13 mnemonics (R74). -/
inductive Kind where
  | hlt | ret | push | pop | prn | call | jmp | jeq | jne | ldi | add | mul | cmp
deriving DecidableEq, Repr

/-- The four formats (R50). -/
inductive Format where
  /-- Opcode only. -/
  | z
  /-- Opcode and register index A. -/
  | r
  /-- Opcode and register indices A and B. -/
  | rr
  /-- Opcode, register index A and an immediate. -/
  | ri
deriving DecidableEq, Repr

/-- The closed set of ALU operations (R74, R134). There is no constructor for an unsupported one (R173). -/
inductive AluOp where
  | add | mul | cmp
deriving DecidableEq, Repr

end Sys2Proof
end

