-- ==== Sys2Proof/WellFormed.lean ====
section
/-!
DEFINITION. Which instructions are well formed: every operand byte used as a register index names a register
(spec/30_encoding.md R52, R58). The check is the model's own reading aid and changes nothing the machine does with
ill-formed bytes (spec/93_implementation_defined.md U13): those decode and fault (spec/40_step_cycle.md R75).
-/

namespace Sys2Proof

/-- The byte is a legal register index, 0 to 7 (R52). -/
def validReg (k : Byte) : Bool := decide (k.toNat < 8)

/-- Every register operand is legal (R58): "format `R` accepts `a` in 0..7"; the immediate is never checked. -/
def Instr.wellFormed : Instr → Bool
  | .hlt => true
  | .ret => true
  | .push a => validReg a
  | .pop a => validReg a
  | .prn a => validReg a
  | .call a => validReg a
  | .jmp a => validReg a
  | .jeq a => validReg a
  | .jne a => validReg a
  | .ldi a _ => validReg a
  | .add a b => validReg a && validReg b
  | .mul a b => validReg a && validReg b
  | .cmp a b => validReg a && validReg b

end Sys2Proof
end

