-- ==== Sys2Proof/Decode.lean ====
section
/-!
DEFINITION. The decoder and the encoder (spec/30_encoding.md R50 to R59, spec/40_step_cycle.md R73, R74).
The whole opcode byte selects the instruction; no bit field of it is looked at (R56).
-/

namespace Sys2Proof

/-- The opcode map of R55: each opcode byte with its instruction kind. -/
def opcodeTable : List (Byte × Kind) :=
  [ (0x01, .hlt), (0x11, .ret), (0x45, .push), (0x46, .pop), (0x47, .prn), (0x50, .call), (0x54, .jmp)
  , (0x55, .jeq), (0x56, .jne), (0x82, .ldi), (0xA0, .add), (0xA2, .mul), (0xA7, .cmp) ]

/-- The format column of R55. -/
def Kind.format : Kind → Format
  | .hlt | .ret => .z
  | .push | .pop | .prn | .call | .jmp | .jeq | .jne => .r
  | .ldi => .ri
  | .add | .mul | .cmp => .rr

/-- The length in bytes that each format uses (R51). -/
def Format.length : Format → Nat
  | .z => 1
  | .r => 2
  | .rr | .ri => 3

/-- The ALU operation the decoder selects, for ADD, MUL and CMP only (R74). -/
def Kind.aluOp : Kind → Option AluOp
  | .add => some .add
  | .mul => some .mul
  | .cmp => some .cmp
  | .hlt | .ret | .push | .pop | .prn | .call | .jmp | .jeq | .jne | .ldi => none

/-- Why the decoder refuses bytes. -/
inductive DecodeError where
  /-- The opcode byte has no table entry (R57, R73). -/
  | invalidOpcode (op : Byte)
  /-- Fewer than three bytes are there; all three must exist (R54). -/
  | truncated
deriving DecidableEq, Repr

/-- The logical record the decoder hands to the rest of the block (R74). -/
structure Decoded where
  /-- one of the 13 mnemonics -/
  kind : Kind
  /-- the format of the row -/
  format : Format
  /-- operand A names a register (formats R, RR, RI) -/
  aNamesReg : Bool
  /-- operand B names a register (format RR) -/
  bNamesReg : Bool
  /-- the ALU operation, for ADD, MUL, CMP -/
  aluOp : Option AluOp
  /-- operand byte A -/
  a : Byte
  /-- operand byte B -/
  b : Byte
deriving DecidableEq, Repr

/-- Look the opcode byte up, comparing all 8 bits (R55, R73). -/
def lookupOpcode (op : Byte) : Option Kind :=
  (opcodeTable.find? fun row => row.1 == op).map (·.2)

/-- The decoder's record for a fetched triple, or the refusal of an opcode outside the table (R73, R74). -/
def decodeRecord (op a b : Byte) : Except DecodeError Decoded :=
  match lookupOpcode op with
  | none => .error (.invalidOpcode op)
  | some k =>
    .ok { kind := k
          format := k.format
          aNamesReg := decide (k.format ≠ .z)
          bNamesReg := decide (k.format = .rr)
          aluOp := k.aluOp
          a := a
          b := b }

/-- The instruction a kind and the two operand bytes make; a byte the format does not use is dropped (R50, R54). -/
def Kind.build (k : Kind) (a b : Byte) : Instr :=
  match k with
  | .hlt => .hlt
  | .ret => .ret
  | .push => .push a
  | .pop => .pop a
  | .prn => .prn a
  | .call => .call a
  | .jmp => .jmp a
  | .jeq => .jeq a
  | .jne => .jne a
  | .ldi => .ldi a b
  | .add => .add a b
  | .mul => .mul a b
  | .cmp => .cmp a b

/-- Decode a fetched triple (R72, R73). -/
def decodeTriple (op a b : Byte) : Except DecodeError Instr :=
  match decodeRecord op a b with
  | .error e => .error e
  | .ok d => .ok (d.kind.build d.a d.b)

/-- Decode the instruction at the head of a list of bytes: three bytes must be there, whatever the format uses (R54). -/
def decodeBytes : List Byte → Except DecodeError Instr
  | op :: a :: b :: _ => decodeTriple op a b
  | _ => .error .truncated

/-- The kind of an instruction. -/
def Instr.kind : Instr → Kind
  | .hlt => .hlt
  | .ret => .ret
  | .push _ => .push
  | .pop _ => .pop
  | .prn _ => .prn
  | .call _ => .call
  | .jmp _ => .jmp
  | .jeq _ => .jeq
  | .jne _ => .jne
  | .ldi _ _ => .ldi
  | .add _ _ => .add
  | .mul _ _ => .mul
  | .cmp _ _ => .cmp

/-- The opcode byte of a kind: the opcode column of R55, read from the mnemonic. -/
def Kind.opcode : Kind → Byte
  | .hlt => 0x01
  | .ret => 0x11
  | .push => 0x45
  | .pop => 0x46
  | .prn => 0x47
  | .call => 0x50
  | .jmp => 0x54
  | .jeq => 0x55
  | .jne => 0x56
  | .ldi => 0x82
  | .add => 0xA0
  | .mul => 0xA2
  | .cmp => 0xA7

/-- The operand bytes of an instruction, in address order (R50). -/
def Instr.operands : Instr → List Byte
  | .hlt | .ret => []
  | .push a | .pop a | .prn a | .call a | .jmp a | .jeq a | .jne a => [a]
  | .ldi a imm => [a, imm]
  | .add a b | .mul a b | .cmp a b => [a, b]

/-- The bytes of an instruction, opcode first (R50, R55). -/
def encode (i : Instr) : List Byte := i.kind.opcode :: i.operands

/-- Byte `k` (counted from 0, the lowest address) of an instruction given as a number `w` of `nbits` bits whose bit 0 is
bit 0 of the first byte; bits above `nbits` are 0. The numbering is that of spec/opcode_table.json, byte 0 first. -/
def wordByte (nbits w k : Nat) : Byte := BitVec.ofNat 8 (w % 2 ^ nbits / 256 ^ k)

/-- The instruction the decoder reads from a word of the opcode table. -/
def decodeTableWord (nbits w : Nat) : Option Instr :=
  match decodeBytes [wordByte nbits w 0, wordByte nbits w 1, wordByte nbits w 2] with
  | .ok i => some i
  | .error _ => none

end Sys2Proof
end

