-- ==== Sys2Proof/Machine/State.lean ====
section
/-!
DEFINITION. The state bundle of spec/10_state.md R10 as plain data, its reset values (R25), and the reasons a step of
the model can stop.
-/

namespace Sys2Proof.Machine

/-- Which index space an out-of-bounds fault speaks of (spec/60_exceptions.md R170, decision D12). -/
inductive Space where
  /-- The memory array: the fetch went past address 255. -/
  | mem
  /-- The register file: an operand byte is above 7. -/
  | reg
deriving DecidableEq, Repr

/-- The fault values of R170. They are the HARDWARE's faults, recorded in `run`; taking one is a next state (R176). -/
inductive FaultValue where
  /-- `OutOfBounds(space, n)`: `n` is 256 for `mem`, the offending index byte for `reg`; 9 bits hold both (R151). -/
  | outOfBounds (space : Space) (n : BitVec 9)
  /-- `InvalidOpcode(op, pc)`: the opcode byte and the `pc` it was fetched from. -/
  | invalidOpcode (op : Byte) (pc : Pc)
deriving DecidableEq, Repr

/-- The run state `run` (R20). `halted` and `faulted` are terminal until reset. -/
inductive RunState where
  /-- Steps are taken. -/
  | running
  /-- The normal end, by HLT only. -/
  | halted
  /-- The abnormal end; the fault value is kept for the host. -/
  | faulted (f : FaultValue)
deriving DecidableEq, Repr

/-- The three condition flags, three separate bits (R17, R18). -/
structure Flags where
  /-- `E`, Equal: the only flag an instruction reads -/
  e : Bool
  /-- `L`, Less-than -/
  l : Bool
  /-- `G`, Greater-than -/
  g : Bool
deriving DecidableEq, Repr

/-- The memory array in canonical form (see `Memory.wf` in `Machine/Ops.lean`): addresses strictly rising, no cell
equal to what an unlisted address reads as. Log entry 11. -/
abbrev Memory := List Host.Cell

/-- The whole state (R10): "Nothing else is state". -/
structure State where
  /-- `x[0]` to `x[7]` (R11) -/
  regs : Vector Byte 8
  /-- the program counter, 9 bits (R14) -/
  pc : Pc
  /-- the stack pointer, 8 bits, not a register (R19) -/
  sp : Byte
  /-- `E`, `L`, `G` (R17) -/
  flags : Flags
  /-- the run state with the fault record (R20) -/
  run : RunState
  /-- the 256 cells of memory (R30) -/
  mem : Memory
  /-- the values PRN has emitted since reset, oldest first (R21) -/
  out : List Byte
deriving DecidableEq, Repr

/-- The state right after reset (R25, R191). Every field but `mem` is at the value R25 gives. The block's reset leaves
memory alone; here memory is the document's zero-initialised array before a loader has written to it (R25, R193).
DESIGN CHOICE, unsafe (log entry 2): a claim about a program takes its image from `launch` instead. -/
def State.reset : State where
  regs := Vector.replicate 8 0
  pc := 0
  sp := 0
  flags := { e := false, l := false, g := false }
  run := .running
  mem := []
  out := []

/-- Why the model's `step` stops. Both are stuck states, raised by `step` alone: the spec says no step exists there.
DEDUCED (log entry 1). Safe: the machine itself stays as it is until reset. -/
inductive Fault where
  /-- Raised by `step` in `Halted`, which "takes no step" (R20, R70). Safe. -/
  | runHalted
  /-- Raised by `step` in `Faulted(f)`, which "takes no step" (R20, R70, R177). Safe. -/
  | runFaulted (f : FaultValue)
deriving DecidableEq, Repr

/-- Why the model refuses an instruction. -/
inductive Refusal where
  /-- The instruction has no meaning yet. No arm of `exec` answers it: every instruction has its meaning. Safe. -/
  | notModelled (mnemonic : String)
deriving DecidableEq, Repr

/-- What running one instruction answers. -/
abbrev Result := Host.Outcome State Fault Refusal

end Sys2Proof.Machine
end

