-- ==== Sys2Proof/Machine/Ops.lean ====
section
/-!
DEFINITION. The named operations over memory and registers, taking a fault, and launch and reset
(spec/00_scope.md R8, spec/20_memory.md, spec/60_exceptions.md R176, spec/70_reset_and_hazards.md R190, R193).
-/

namespace Sys2Proof.Machine

/-! ### Memory -/

/-- What a cell that the list does not name reads as: 0, the document's initial memory (R25, R193). Log entry 2. -/
def Memory.unlisted : Byte := 0

/-- The canonical form: addresses strictly rising, within the 256 cells, no cell at the unlisted value. -/
abbrev Memory.wf (m : Memory) : Prop :=
  m.Pairwise (fun c d => c.1 < d.1) ∧ ∀ c ∈ m, c.1 < Config.memCells ∧ c.2 ≠ Memory.unlisted

/-- The value at a cell number. -/
def Memory.readCell : Memory → Nat → Byte
  | [], _ => Memory.unlisted
  | c :: m, n => if c.1 = n then c.2 else Memory.readCell m n

/-- The list without the cell of that number. -/
def Memory.eraseCell (m : Memory) (n : Nat) : Memory := m.filter fun c => decide (c.1 ≠ n)

/-- Put a cell before the first one with a greater number. -/
def Memory.insertCell : Memory → Nat → Byte → Memory
  | [], n, v => [(n, v)]
  | c :: m, n, v => if n < c.1 then (n, v) :: c :: m else c :: Memory.insertCell m n v

/-- `MemRead(addr, 1)` (R8, R32): no side effect, cannot fault. -/
def Memory.read (m : Memory) (a : Addr) : Byte := m.readCell a.toNat

/-- `MemWrite(addr, 1, v)` (R8, R32): one cell replaced, all others unchanged, cannot fault. -/
def Memory.write (m : Memory) (a : Addr) (v : Byte) : Memory :=
  if v = Memory.unlisted then m.eraseCell a.toNat else (m.eraseCell a.toNat).insertCell a.toNat v

/-- The image the document's loader leaves (R193): the program's bytes from address 0 upward, every other cell 0.
No image for more than 256 bytes (decision D22, log entry 8). -/
def Memory.ofProgram (bytes : List Byte) : Option Memory :=
  if bytes.length ≤ Config.memCells then
    some ((bytes.zipIdx).foldl (fun m p => m.write (BitVec.ofNat 8 p.2) p.1) [])
  else none

/-! ### Registers, program counter, output -/

/-- `x[r]` (R7). Every register is readable; one never written since reset holds 0 (R12). -/
def State.reg (s : State) (r : RegIdx) : Byte := s.regs[r]

/-- `x[r] <- v` (R7). No register is hard-wired (R11). -/
def State.setReg (s : State) (r : RegIdx) (v : Byte) : State := { s with regs := s.regs.set r v }

/-- `pc <- pc + n`, for an instruction that falls through (R15). -/
def State.advance (s : State) (n : Pc) : State := { s with pc := s.pc + n }

/-- `pc <- zext_9(t)` (R8, R109): an absolute target, not checked at the time of the jump. -/
def State.jump (s : State) (t : Byte) : State := { s with pc := zext9 t }

/-- `emit(v)` (R8, R92): append to the output history. -/
def State.emit (s : State) (v : Byte) : State := { s with out := s.out ++ [v] }

/-- `run <- Halted` (R90). -/
def State.halt (s : State) : State := { s with run := .halted }

/-! ### The stack: two directions, one pointer (R99) -/

/-- Where PUSH stores: `sp + 1 mod 256` (R100). -/
def State.pushAddr (s : State) : Addr := s.sp + 1

/-- Where CALL stores: `sp - 1 mod 256` (R110). -/
def State.callAddr (s : State) : Addr := s.sp - 1

/-- Move `sp` to `a`, then `MemWrite(sp, 1, v)`: PUSH and CALL modify before they write (R99). -/
def State.storeAtNewSp (s : State) (a : Addr) (v : Byte) : State := { s with sp := a, mem := s.mem.write a v }

/-- `MemRead(sp, 1)` from the old `sp`: POP and RET read before they modify (R99). -/
def State.stackTop (s : State) : Byte := s.mem.read s.sp

/-- `sp <- v`, after a stack load. -/
def State.setSp (s : State) (v : Byte) : State := { s with sp := v }

/-- The return address CALL stores, `(pc + 2)[7:0]` (R110). -/
def State.returnAddr (s : State) : Byte := low8 (s.pc + 2)

/-! ### Taking a fault -/

/-- `raise Fault(f)` (R8, R176): exactly `run <- Faulted(f)`; nothing else changes, `pc` stays at the faulting
instruction. There is no handler, no saved state and no return (R176, R177). -/
def raiseFault (f : FaultValue) (s : State) : State := { s with run := .faulted f }

/-! ### Launch and reset -/

/-- The launch state over a memory image (R193). -/
def launch (m0 : Memory) : State := { State.reset with mem := m0 }

/-- The `reset` input (R157, R190): everything inside the block to its reset value, memory untouched. It is no step of
the machine; a run after it is a new launch (R157). Log entry 5. -/
def State.assertReset (s : State) : State := launch s.mem

end Sys2Proof.Machine
end

