-- ==== Sys2Proof/Machine/Flags.lean ====
section
/-!
DEFINITION. The ALU as a pure function of an operation and two values, and the condition flags
(spec/45_alu.md R134, R139, R141; spec/50_interfaces.md R150; spec/10_state.md R17, R18).
-/

namespace Sys2Proof.Machine

/-- The ALU's 8-bit result, reduced modulo 256 (R135, R137, R141); a compare has no arithmetic result (R139). -/
def aluResult : AluOp → Byte → Byte → Option Byte
  | .add, x, y => some (x + y)
  | .mul, x, y => some (x * y)
  | .cmp, _, _ => none

/-- The ALU's three comparison bits, of unsigned values (R139, R5). -/
def aluCompare (x y : Byte) : Flags :=
  { e := decide (x.toNat = y.toNat), l := decide (x.toNat < y.toNat), g := decide (y.toNat < x.toNat) }

/-- What CMP writes to the flags: all three bits (R139, decision D7). With `sticky` (CMP_STICKY = true, the variant of
spec/92_eei_decisions.md that is not this hardware's) a flag that is 1 stays 1. -/
def cmpFlags (sticky : Bool) (old new : Flags) : Flags :=
  if sticky then { e := old.e || new.e, l := old.l || new.l, g := old.g || new.g } else new

/-- The flags after an ALU operation: only CMP writes them (R17, R150). -/
def aluFlags (op : AluOp) (old : Flags) (x y : Byte) : Flags :=
  match op with
  | .add => old
  | .mul => old
  | .cmp => cmpFlags Config.cmpSticky old (aluCompare x y)

/-- An ALU instruction on two registers: read both operands, write the result to register A if there is one, write the
flags if it is CMP, `pc <- pc + 3` (R135, R137, R139). -/
def State.aluStep (s : State) (op : AluOp) (ra rb : RegIdx) : State :=
  let x := s.reg ra
  let y := s.reg rb
  let written := match aluResult op x y with
    | some v => s.setReg ra v
    | none => s
  { written with flags := aluFlags op s.flags x y, pc := s.pc + 3 }

end Sys2Proof.Machine
end

