-- ==== Sys2Proof/Machine/Operands.lean ====
section
/-!
DEFINITION. The operand forms: register index A, register indices A and B (spec/30_encoding.md R50, R52) with the check
of spec/40_step_cycle.md R75. An immediate is its byte (R53) and needs no operation.
-/

namespace Sys2Proof.Machine

/-- `regidx(k)` of R8: the whole byte is the index, never masked; none above 7 (R52). -/
def regidx (k : Byte) : Option RegIdx := if h : k.toNat < 8 then some ⟨k.toNat, h⟩ else none

/-- The fault a bad register index raises: `OutOfBounds(reg, k)` (R75, R170). -/
def badReg (k : Byte) : FaultValue := .outOfBounds .reg (zext9 k)

/-- Formats R and RI: check operand A, then run the body (R75). -/
def withRegA (a : Byte) (s : State) (body : RegIdx → State) : Result :=
  match regidx a with
  | none => .next (raiseFault (badReg a) s)
  | some r => .next (body r)

/-- Format RR: check operand A, then operand B, then run the body (R75). -/
def withRegsAB (a b : Byte) (s : State) (body : RegIdx → RegIdx → State) : Result :=
  match regidx a with
  | none => .next (raiseFault (badReg a) s)
  | some ra =>
    match regidx b with
    | none => .next (raiseFault (badReg b) s)
    | some rb => .next (body ra rb)

/-- The fault of one register operand byte, if it raises one. -/
def regFault (k : Byte) : Option FaultValue := if k.toNat < 8 then none else some (badReg k)

/-- The operand check of R75 as a function of the instruction alone: `check(insn.format, a, b)` of R77. It does not look
at the flags. The meanings check through `withRegA` and `withRegsAB`; this says beforehand what they will find. -/
def operandFault : Instr → Option FaultValue
  | .hlt => none
  | .ret => none
  | .push a => regFault a
  | .pop a => regFault a
  | .prn a => regFault a
  | .call a => regFault a
  | .jmp a => regFault a
  | .jeq a => regFault a
  | .jne a => regFault a
  | .ldi a _ => regFault a
  | .add a b => (regFault a).or (regFault b)
  | .mul a b => (regFault a).or (regFault b)
  | .cmp a b => (regFault a).or (regFault b)

end Sys2Proof.Machine
end

