-- ==== Sys2Proof/Machine/Alu.lean ====
section
/-!
DEFINITION. ADD, MUL and CMP over the one ALU (spec/45_alu.md).
-/

namespace Sys2Proof.Machine

/-- ADD (R135): `x[a] <- (x[a] + x[b]) mod 256`, `pc + 3`; no flag. -/
def execAdd (a b : Byte) (s : State) : Result :=
  withRegsAB a b s fun ra rb => s.aluStep .add ra rb

/-- MUL (R137): `x[a] <- (x[a] * x[b]) mod 256`, `pc + 3`; no flag. -/
def execMul (a b : Byte) (s : State) : Result :=
  withRegsAB a b s fun ra rb => s.aluStep .mul ra rb

/-- CMP (R139): `E`, `L`, `G` from the unsigned comparison, `pc + 3`; no register. -/
def execCmp (a b : Byte) (s : State) : Result :=
  withRegsAB a b s fun ra rb => s.aluStep .cmp ra rb

end Sys2Proof.Machine
end

