-- ==== Sys2Proof/Machine/Control.lean ====
section
/-!
DEFINITION. CALL, RET, JMP, JEQ, JNE (spec/43_control_transfer.md). CALL and RET move `sp` downward: `sp - 1` then
write; read then `sp + 1` (spec/42_stack.md R99).
-/

namespace Sys2Proof.Machine

/-- CALL (R110): target read first, `sp <- sp - 1`, `mem[sp] <- (pc + 2)[7:0]`, jump. -/
def execCall (a : Byte) (s : State) : Result :=
  withRegA a s fun r => (s.storeAtNewSp s.callAddr s.returnAddr).jump (s.reg r)

/-- RET (R113): target from `mem[sp]` at the old `sp`, `sp <- sp + 1`, jump. -/
def execRet (s : State) : Result := .next ((s.setSp (s.sp + 1)).jump s.stackTop)

/-- JMP (R116). -/
def execJmp (a : Byte) (s : State) : Result :=
  withRegA a s fun r => s.jump (s.reg r)

/-- JEQ (R118): jump if `E = 1`, else `pc + 2`; the index is checked either way (R75). -/
def execJeq (a : Byte) (s : State) : Result :=
  withRegA a s fun r => if s.flags.e then s.jump (s.reg r) else s.advance 2

/-- JNE (R120): jump if `E = 0`, else `pc + 2`; the index is checked either way (R75). -/
def execJne (a : Byte) (s : State) : Result :=
  withRegA a s fun r => if s.flags.e then s.advance 2 else s.jump (s.reg r)

end Sys2Proof.Machine
end

