-- ==== Sys2Proof/Machine/Load.lean ====
section
/-!
DEFINITION. LDI (spec/44_load_immediate.md).
-/

namespace Sys2Proof.Machine

/-- LDI (R130): `x[a] <- b`, the whole byte, `pc + 3`. -/
def execLdi (a imm : Byte) (s : State) : Result :=
  withRegA a s fun r => (s.setReg r imm).advance 3

end Sys2Proof.Machine
end

