-- ==== Sys2Proof/Machine/Stack.lean ====
section
/-!
DEFINITION. PUSH and POP (spec/42_stack.md): upward, `sp + 1` then write; read then `sp - 1` (R99).
-/

namespace Sys2Proof.Machine

/-- PUSH (R100): `sp <- sp + 1`, `mem[sp] <- x[a]`, `pc + 2`. -/
def execPush (a : Byte) (s : State) : Result :=
  withRegA a s fun r => (s.storeAtNewSp s.pushAddr (s.reg r)).advance 2

/-- POP (R102): `x[a] <- mem[sp]` from the old `sp`, `sp <- sp - 1`, `pc + 2`. -/
def execPop (a : Byte) (s : State) : Result :=
  withRegA a s fun r => ((s.setReg r s.stackTop).setSp (s.sp - 1)).advance 2

end Sys2Proof.Machine
end

