-- ==== Sys2Proof/Machine/System.lean ====
section
/-!
DEFINITION. HLT and PRN (spec/41_system.md).
-/

namespace Sys2Proof.Machine

/-- HLT (R90): `run <- Halted`; `pc` stays at the HLT (decision D9). -/
def execHlt (s : State) : Result := .next s.halt

/-- PRN (R92): emit `x[a]`, `pc + 2`. -/
def execPrn (a : Byte) (s : State) : Result :=
  withRegA a s fun r => (s.emit (s.reg r)).advance 2

end Sys2Proof.Machine
end

