-- ==== Sys2Proof/Machine/Dispatch.lean ====
section
/-!
DEFINITION. One arm per instruction (spec/40_step_cycle.md R76).
-/

namespace Sys2Proof.Machine

open Sys2Proof

def exec (i : Instr) (s : State) : Host.Outcome State Fault Refusal :=
  match i with
  | .hlt => Sys2Proof.Machine.execHlt s
  | .ret => Sys2Proof.Machine.execRet s
  | .push a => Sys2Proof.Machine.execPush a s
  | .pop a => Sys2Proof.Machine.execPop a s
  | .prn a => Sys2Proof.Machine.execPrn a s
  | .call a => Sys2Proof.Machine.execCall a s
  | .jmp a => Sys2Proof.Machine.execJmp a s
  | .jeq a => Sys2Proof.Machine.execJeq a s
  | .jne a => Sys2Proof.Machine.execJne a s
  | .ldi a imm => Sys2Proof.Machine.execLdi a imm s
  | .add a b => Sys2Proof.Machine.execAdd a b s
  | .mul a b => Sys2Proof.Machine.execMul a b s
  | .cmp a b => Sys2Proof.Machine.execCmp a b s

end Sys2Proof.Machine
end

