-- ==== Sys2Proof/Machine/Fetch.lean ====
section
/-!
DEFINITION. Fetch and decode (spec/40_step_cycle.md R70 to R75), and what a step will find in them.
-/

namespace Sys2Proof.Machine

/-- The three bytes of one fetch (R72), transient (R10). -/
structure Fetched where
  /-- the opcode byte -/
  op : Byte
  /-- operand byte A -/
  a : Byte
  /-- operand byte B -/
  b : Byte
deriving DecidableEq, Repr

/-- The address of fetch read `k` = 0, 1, 2: `pc + k` (R72), an 8-bit port address when `pc <= 253`. -/
def State.fetchAddr (s : State) (k : Pc) : Addr := low8 (s.pc + k)

/-- The fetch bounds check, then the three reads (R71, R72). The reported address is 256, the first one past the
memory (R71). -/
def fetch (s : State) : Except FaultValue Fetched :=
  if Config.maxFetchPc < s.pc.toNat then
    .error (.outOfBounds .mem (BitVec.ofNat 9 Config.memCells))
  else
    .ok { op := s.mem.read (s.fetchAddr 0)
          a := s.mem.read (s.fetchAddr 1)
          b := s.mem.read (s.fetchAddr 2) }

/-- The fault of a decode refusal: `InvalidOpcode(op, pc)` (R73). A missing byte is a fetch past the memory (R54, R71);
the fetched triple is whole, so it does not arise in a step. -/
def decodeFault (pc : Pc) : DecodeError → FaultValue
  | .invalidOpcode op => .invalidOpcode op pc
  | .truncated => .outOfBounds .mem (BitVec.ofNat 9 Config.memCells)

/-- Fetch and decode (R70): the instruction at `pc`, or the first fault of the two phases. -/
def fetchDecode (s : State) : Except FaultValue Instr :=
  match fetch s with
  | .error f => .error f
  | .ok t =>
    match decodeTriple t.op t.a t.b with
    | .error e => .error (decodeFault s.pc e)
    | .ok i => .ok i

/-- The one fault the next step would raise, in the priority order of R174: fetch, decode, operand A, operand B. It
depends on `pc` and memory alone. -/
def firstFault (s : State) : Option FaultValue :=
  match fetchDecode s with
  | .error f => some f
  | .ok i => operandFault i

/-- Why no step exists, if none does: a step is taken if and only if `run = Running` (R70, R20). -/
def stopReason (s : State) : Option Fault :=
  match s.run with
  | .running => none
  | .halted => some .runHalted
  | .faulted f => some (.runFaulted f)

/-- Place three bytes where the next fetch reads them. -/
def State.placeAtPc (s : State) (op a b : Byte) : State :=
  { s with mem := ((s.mem.write (s.fetchAddr 0) op).write (s.fetchAddr 1) a).write (s.fetchAddr 2) b }

end Sys2Proof.Machine
end

