-- ==== Sys2Proof/Machine/Step.lean ====
section
/-!
DEFINITION. One step (spec/40_step_cycle.md R70, R77), and placing an instruction where the next step fetches it.
-/

namespace Sys2Proof.Machine

/-- One step: fetch, decode, operand check, execute, or the raising of one fault (R77). Defined on `Running` states;
in `Halted` and `Faulted(f)` no step exists and the model stops (log entry 1). -/
def step (s : State) : Host.Outcome State Fault Refusal :=
  match stopReason s with
  | some r => .fault r
  | none =>
    match fetchDecode s with
    | .error f => .next (raiseFault f s)
    | .ok i => exec i s

/-- The state with an instruction, given as a number of `nbits` bits, stored at `pc`, `pc + 1`, `pc + 2` (R72); bytes
above `nbits` are 0. It stands for the host's load before launch (R159); log entry 3. -/
def State.withFetchWord (s : State) (nbits w : Nat) : State :=
  s.placeAtPc (wordByte nbits w 0) (wordByte nbits w 1) (wordByte nbits w 2)

end Sys2Proof.Machine
end

