-- ==== Sys2Proof/Machine/Ports.lean ====
section
/-!
DEFINITION. What the block's ports show at the instruction level (spec/50_interfaces.md R151 to R156): the status port
as a view of the state, and the memory transactions and the output of one step. These are functions beside `step`; that
they agree with it is a matter of theorems. Clock periods are not modelled (R158, log entry 9).
-/

namespace Sys2Proof.Machine

/-! ### Status port (R151, R154, R170) -/

/-- The status port's fields. `faultSpace` and `faultInfo` are none where the spec says they are not valid (log entry 7). -/
structure StatusPort where
  /-- `run_state`: 0 = Running, 1 = Halted, 2 = Faulted; 3 never occurs -/
  runState : BitVec 2
  /-- `fault_kind`: 1 = OutOfBounds, 2 = InvalidOpcode, 0 when not faulted; 3 is reserved and never occurs -/
  faultKind : BitVec 2
  /-- `fault_space`, valid for OutOfBounds: 0 = mem, 1 = reg -/
  faultSpace : Option (BitVec 1)
  /-- `fault_info`, valid when faulted -/
  faultInfo : Option (BitVec 9)
  /-- `pc_out`: the current `pc` -/
  pcOut : BitVec 9
deriving DecidableEq, Repr

/-- `run_state` (R151). -/
def RunState.code : RunState → BitVec 2
  | .running => 0
  | .halted => 1
  | .faulted _ => 2

/-- `fault_space` (R151). -/
def Space.code : Space → BitVec 1
  | .mem => 0
  | .reg => 1

/-- `fault_kind` of a fault value (R151). -/
def FaultValue.kindCode : FaultValue → BitVec 2
  | .outOfBounds _ _ => 1
  | .invalidOpcode _ _ => 2

/-- `fault_space` of a fault value (R151). -/
def FaultValue.spaceCode : FaultValue → Option (BitVec 1)
  | .outOfBounds sp _ => some sp.code
  | .invalidOpcode _ _ => none

/-- `fault_info` of a fault value (R151). -/
def FaultValue.infoCode : FaultValue → BitVec 9
  | .outOfBounds _ n => n
  | .invalidOpcode op _ => zext9 op

/-- The fault record, in `Faulted(f)` only (R20). -/
def RunState.record : RunState → Option FaultValue
  | .running => none
  | .halted => none
  | .faulted f => some f

/-- The status port of a state (R154). -/
def State.statusPort (s : State) : StatusPort :=
  { runState := s.run.code
    faultKind := (s.run.record.map FaultValue.kindCode).getD 0
    faultSpace := s.run.record.bind FaultValue.spaceCode
    faultInfo := s.run.record.map FaultValue.infoCode
    pcOut := s.pc }

/-! ### Memory port (R152, R155, R156) -/

/-- One transaction on the memory port: a read with the data that comes back, or a write with its data (R152). -/
inductive MemTxn where
  /-- `mem_we = 0` -/
  | read (addr : Addr) (rdata : Byte)
  /-- `mem_we = 1` -/
  | write (addr : Addr) (wdata : Byte)
deriving DecidableEq, Repr

/-- `mem_addr` (R151). -/
def MemTxn.addr : MemTxn → Addr
  | .read a _ => a
  | .write a _ => a

/-- `mem_we` (R151). -/
def MemTxn.we : MemTxn → Bool
  | .read _ _ => false
  | .write _ _ => true

/-- What a transaction does to the memory array (R152): a read nothing, a write its one cell. -/
def MemTxn.apply (m : Memory) : MemTxn → Memory
  | .read _ _ => m
  | .write a v => m.write a v

/-- The transaction reads what the array holds (R152). -/
def MemTxn.agrees (m : Memory) : MemTxn → Bool
  | .read a v => m.read a == v
  | .write _ _ => true

/-- The three reads of a fetch, in order (R72, R155). -/
def fetchReads (s : State) : List MemTxn :=
  [ .read (s.fetchAddr 0) (s.mem.read (s.fetchAddr 0))
  , .read (s.fetchAddr 1) (s.mem.read (s.fetchAddr 1))
  , .read (s.fetchAddr 2) (s.mem.read (s.fetchAddr 2)) ]

/-- The data transaction of an instruction that does not fault (R31, R156). -/
def dataAccess (i : Instr) (s : State) : Option MemTxn :=
  match i with
  | .push a => (regidx a).map fun r => .write s.pushAddr (s.reg r)
  | .pop a => (regidx a).map fun _ => .read s.sp s.stackTop
  | .call a => (regidx a).map fun _ => .write s.callAddr s.returnAddr
  | .ret => some (.read s.sp s.stackTop)
  | .hlt | .prn _ | .jmp _ | .jeq _ | .jne _ | .ldi _ _ | .add _ _ | .mul _ _ | .cmp _ _ => none

/-- The value an instruction that does not fault puts on the output port (R153, R156). -/
def outputOf (i : Instr) (s : State) : Option Byte :=
  match i with
  | .prn a => (regidx a).map fun r => s.reg r
  | .hlt | .ret | .push _ | .pop _ | .call _ | .jmp _ | .jeq _ | .jne _ | .ldi _ _ | .add _ _ | .mul _ _ | .cmp _ _ => none

/-- The memory transactions of the step at a state, in order (R155): none outside `Running`, none when the fetch faults,
the three reads alone when decode or the operand check faults, else the three reads and at most one data access. -/
def stepTransactions (s : State) : List MemTxn :=
  match stopReason s with
  | some _ => []
  | none =>
    match fetch s with
    | .error _ => []
    | .ok t =>
      match decodeTriple t.op t.a t.b with
      | .error _ => fetchReads s
      | .ok i => fetchReads s ++ (dataAccess i s).toList

/-- `out_data` while `out_valid = 1` in the step at a state, none when `out_valid` stays 0 (R153). -/
def stepOutput (s : State) : Option Byte :=
  match stopReason s with
  | some _ => none
  | none =>
    match fetchDecode s with
    | .error _ => none
    | .ok i => outputOf i s

end Sys2Proof.Machine
end

