-- ==== Sys2Proof/Safety.lean ====
section
/-!
DEFINITION. The terms claims are stated in: what stays the same, the invariant of every reachable state
(spec/10_state.md R16, R18, R20, R26), which instruction a step executes, and runs (spec/40_step_cycle.md R78).
-/

namespace Sys2Proof.Machine

/-! ### Frames -/

/-- Every general register is unchanged. -/
def SameRegs (s t : State) : Prop := ∀ q : RegIdx, t.reg q = s.reg q

/-- Every general register but `r` is unchanged. -/
def SameRegsBut (r : RegIdx) (s t : State) : Prop := ∀ q : RegIdx, q ≠ r → t.reg q = s.reg q

/-- Every cell of memory reads as before. -/
def SameMem (s t : State) : Prop := ∀ x : Addr, t.mem.read x = s.mem.read x

/-- Every cell of memory but `a` reads as before. -/
def SameMemBut (a : Addr) (s t : State) : Prop := ∀ x : Addr, x ≠ a → t.mem.read x = s.mem.read x

/-- The two states differ in the flags `L` and `G` at most. -/
def SameButLG (s t : State) : Prop := t = { s with flags := { s.flags with l := t.flags.l, g := t.flags.g } }

/-! ### What stands at `pc` -/

/-- The byte in the cell of that number. -/
def State.cell (s : State) (n : Nat) : Byte := s.mem.read (BitVec.ofNat 8 n)

/-- An instruction can be fetched at `pc`, and the three cells from there are `op`, `a`, `b` (R71, R72). -/
structure State.Shows (s : State) (op a b : Byte) : Prop where
  pc_le : s.pc.toNat ≤ 253
  op_eq : s.cell s.pc.toNat = op
  a_eq : s.cell (s.pc.toNat + 1) = a
  b_eq : s.cell (s.pc.toNat + 2) = b

/-- The 13 opcode bytes of R55, as R73 lists them. -/
def tableOpcodes : List Byte := [0x01, 0x11, 0x45, 0x46, 0x47, 0x50, 0x54, 0x55, 0x56, 0x82, 0xA0, 0xA2, 0xA7]

/-- The opcodes of format R (R55). -/
def formatROpcodes : List Byte := [0x45, 0x46, 0x47, 0x50, 0x54, 0x55, 0x56]

/-- The opcodes of format RR (R55). -/
def formatRROpcodes : List Byte := [0xA0, 0xA2, 0xA7]

/-- `OutOfBounds(mem, 256)` if `pc > 253`: the first of the faults every instruction's rule lists. -/
def FetchFaultClause : Prop :=
  ∀ s : State, s.run = .running → 253 < s.pc.toNat → step s = .next (raiseFault (.outOfBounds .mem 256) s)

/-! ### Flags -/

/-- How many of the three flags are 1. -/
def Flags.count (f : Flags) : Nat := f.e.toNat + f.l.toNat + f.g.toNat

/-! ### The invariant -/

/-- The run state is explained by what stands at `pc`: `Halted` with an HLT there, `Faulted(f)` with `f` the fault that
fetching, decoding and checking at `pc` finds (R20, R90, R170, R176). -/
def RunExplained (s : State) : Prop :=
  match s.run with
  | .running => True
  | .halted => fetchDecode s = .ok .hlt
  | .faulted f => firstFault s = some f

/-- What holds in every reachable state: `pc <= 256`, at most one flag is 1 (R26), memory is canonical (log entry 11),
and the run state is explained by what stands at `pc`. -/
structure State.Inv (s : State) : Prop where
  pc_le : s.pc.toNat ≤ 256
  flags_le : s.flags.count ≤ 1
  mem_wf : s.mem.wf
  run_explained : RunExplained s

/-! ### Runs -/

/-- The step at `s` executes instruction `i`, raising no fault, and leads to `t` (R70, R76). -/
structure Executes (s : State) (i : Instr) (t : State) : Prop where
  running : s.run = .running
  decoded : fetchDecode s = .ok i
  operands_ok : operandFault i = none
  stepped : step s = .next t

/-- A run without a fault: the instructions executed between two states, first one first (R78). -/
inductive Trace : State → List Instr → State → Prop where
  | done (s : State) : Trace s [] s
  | more {s t u : State} {i : Instr} {is : List Instr} : Executes s i t → Trace t is u → Trace s (i :: is) u

/-- How many instructions of a kind a run executed. -/
def countKind (k : Kind) (is : List Instr) : Nat := is.countP fun i => i.kind = k

/-- The run has ended normally, by HLT (R78). -/
def State.EndedNormally (s : State) : Prop := s.run = .halted

/-- The run has not ended in a fault: what a safe run keeps (R78). -/
def State.NotFaulted (s : State) : Prop := ∀ f, s.run ≠ .faulted f

end Sys2Proof.Machine
end

