-- ==== Sys2Proof/Certificates/Slice0/Obligations.lean ====
section
/-!
DEFINITION. The statements for the provers. Each docstring names the rule it formalises. A rule that carries
"[decision: D<n>]" or "[derived: ...]" is marked by the spec as its own choice or inference: a statement that rests on
such a clause has basis 'derived' and its docstring names the decision.
-/

open Sys2Proof Sys2Proof.Machine

/-! ### Encoding and decoding -/

/-- R50, R54, R55: the decoder undoes the encoder on every instruction, whatever bytes follow, and what a decoded triple
says is spelled by its own first bytes: no bit of an encoding is dropped or invented. -/
def Obligations.DecodeInvertsEncode : Prop :=
  (∀ (i : Instr) (x y : Byte) (rest : List Byte), decodeBytes (encode i ++ x :: y :: rest) = .ok i) ∧
  (∀ (op a b : Byte) (i : Instr), decodeTriple op a b = .ok i → encode i <+: [op, a, b])

/-- R55: the opcode map, row by row: which byte is which instruction, which bytes are its operands, how many bytes it has. -/
def Obligations.OpcodeMapRows : Prop :=
  ∀ a b : Byte,
    (decodeTriple 0x01 a b = .ok .hlt ∧ encode .hlt = [0x01]) ∧
    (decodeTriple 0x11 a b = .ok .ret ∧ encode .ret = [0x11]) ∧
    (decodeTriple 0x45 a b = .ok (.push a) ∧ encode (.push a) = [0x45, a]) ∧
    (decodeTriple 0x46 a b = .ok (.pop a) ∧ encode (.pop a) = [0x46, a]) ∧
    (decodeTriple 0x47 a b = .ok (.prn a) ∧ encode (.prn a) = [0x47, a]) ∧
    (decodeTriple 0x50 a b = .ok (.call a) ∧ encode (.call a) = [0x50, a]) ∧
    (decodeTriple 0x54 a b = .ok (.jmp a) ∧ encode (.jmp a) = [0x54, a]) ∧
    (decodeTriple 0x55 a b = .ok (.jeq a) ∧ encode (.jeq a) = [0x55, a]) ∧
    (decodeTriple 0x56 a b = .ok (.jne a) ∧ encode (.jne a) = [0x56, a]) ∧
    (decodeTriple 0x82 a b = .ok (.ldi a b) ∧ encode (.ldi a b) = [0x82, a, b]) ∧
    (decodeTriple 0xA0 a b = .ok (.add a b) ∧ encode (.add a b) = [0xA0, a, b]) ∧
    (decodeTriple 0xA2 a b = .ok (.mul a b) ∧ encode (.mul a b) = [0xA2, a, b]) ∧
    (decodeTriple 0xA7 a b = .ok (.cmp a b) ∧ encode (.cmp a b) = [0xA7, a, b]) ∧
    (∀ op i, decodeTriple op a b = .ok i → op ∈ tableOpcodes)

/-- R57: an opcode byte outside the table is refused by name and its step faults with `InvalidOpcode(op, pc)`, 0x00
among them; there are 243 such bytes and they are the listed ranges. -/
def Obligations.OpcodesOutsideTheTableAreIllegal : Prop :=
  (∀ op a b : Byte, op ∉ tableOpcodes → decodeTriple op a b = .error (.invalidOpcode op)) ∧
  (∀ (s : State) (op a b : Byte), s.run = .running → s.Shows op a b → op ∉ tableOpcodes →
    step s = .next (raiseFault (.invalidOpcode op s.pc) s)) ∧
  (∀ op : Byte, op ∉ tableOpcodes ↔
    op = 0x00 ∨ (0x02 ≤ op ∧ op ≤ 0x10) ∨ (0x12 ≤ op ∧ op ≤ 0x44) ∨ (0x48 ≤ op ∧ op ≤ 0x4F) ∨
    (0x51 ≤ op ∧ op ≤ 0x53) ∨ (0x57 ≤ op ∧ op ≤ 0x81) ∨ (0x83 ≤ op ∧ op ≤ 0x9F) ∨ op = 0xA1 ∨
    (0xA3 ≤ op ∧ op ≤ 0xA6) ∨ 0xA8 ≤ op) ∧
  ((List.range 256).filter fun n => decide (BitVec.ofNat 8 n ∉ tableOpcodes)).length = 243

/-- R54: operand bytes a format does not use are read by the fetch and may hold any value; all three bytes must exist, or
the fetch faults; JMP takes its register index from operand byte A like every format R instruction. -/
def Obligations.UnusedOperandBytesAreIgnored : Prop :=
  (∀ op ∈ ([0x01, 0x11] : List Byte), ∀ a b a' b' : Byte, decodeTriple op a b = decodeTriple op a' b') ∧
  (∀ op ∈ formatROpcodes, ∀ a b b' : Byte, decodeTriple op a b = decodeTriple op a b') ∧
  (∀ a b : Byte, decodeTriple 0x54 a b = .ok (.jmp a)) ∧
  (∀ (s : State) (op a b : Byte), s.run = .running → s.Shows op a b →
    (stepTransactions s).take 3 =
      [.read (BitVec.ofNat 8 s.pc.toNat) op, .read (BitVec.ofNat 8 (s.pc.toNat + 1)) a,
        .read (BitVec.ofNat 8 (s.pc.toNat + 2)) b]) ∧
  FetchFaultClause

/-! ### The step -/

/-- R70, R72, R73, R76, R77: when the three cells at `pc` decode to an instruction, the step is `exec` of it at that
state; nothing is done around it. -/
def Obligations.StepRunsTheDecodedInstruction : Prop :=
  ∀ (s : State) (op a b : Byte) (i : Instr), s.run = .running → s.Shows op a b → decodeTriple op a b = .ok i →
    step s = exec i s

/-- R71 (decision D10), R155: past address 253 the step faults before any read, whatever the bytes are; at or below it
the fetch gives the three cells. -/
def Obligations.FetchFaultsExactlyPastTheLimit : Prop :=
  (∀ s : State, s.run = .running → 253 < s.pc.toNat →
    step s = .next (raiseFault (.outOfBounds .mem 256) s) ∧ stepTransactions s = []) ∧
  (∀ s : State, s.pc.toNat ≤ 253 →
    fetch s = .ok { op := s.cell s.pc.toNat, a := s.cell (s.pc.toNat + 1), b := s.cell (s.pc.toNat + 2) })

/-- R70: a step is taken if and only if `run = Running`; its phases are fetch, decode, operand check, execute in this
order, and the first that raises a fault ends it; the one instruction that ends the run in `Halted` is HLT. -/
def Obligations.StepIsTakenExactlyWhenRunningInFourPhases : Prop :=
  (∀ s : State, (∃ t, step s = .next t) ↔ s.run = .running) ∧
  (∀ (s : State) (f : FaultValue), s.run = .running → fetch s = .error f → step s = .next (raiseFault f s)) ∧
  (∀ (s : State) (x : Fetched) (e : DecodeError), s.run = .running → fetch s = .ok x →
    decodeTriple x.op x.a x.b = .error e → step s = .next (raiseFault (decodeFault s.pc e) s)) ∧
  (∀ (s : State) (x : Fetched) (i : Instr) (f : FaultValue), s.run = .running → fetch s = .ok x →
    decodeTriple x.op x.a x.b = .ok i → operandFault i = some f → step s = .next (raiseFault f s)) ∧
  (∀ (s : State) (x : Fetched) (i : Instr), s.run = .running → fetch s = .ok x →
    decodeTriple x.op x.a x.b = .ok i → operandFault i = none →
    ∃ t, step s = .next t ∧ exec i s = .next t ∧ (∀ f, t.run ≠ .faulted f) ∧ (t.run = .halted ↔ i = .hlt))

/-- R75, R58, R52 (decision D11): a register operand byte above 7 faults with `OutOfBounds(reg, k)`, A before B, also in
JEQ and JNE whatever the flags are. -/
def Obligations.BadRegisterIndexFaults : Prop :=
  (∀ (s : State) (a b : Byte), 8 ≤ a.toNat →
    ∀ i ∈ [Instr.push a, .pop a, .prn a, .call a, .jmp a, .jeq a, .jne a, .ldi a b, .add a b, .mul a b, .cmp a b],
      exec i s = .next (raiseFault (.outOfBounds .reg (zext9 a)) s)) ∧
  (∀ (s : State) (a b : Byte), a.toNat < 8 → 8 ≤ b.toNat →
    ∀ i ∈ [Instr.add a b, .mul a b, .cmp a b], exec i s = .next (raiseFault (.outOfBounds .reg (zext9 b)) s))

/-- R174 (decision D14): the one fault of a step, over the raw bytes, in the order fetch, opcode, operand A, operand B;
and with none of the four the step ends in no fault. -/
def Obligations.FaultPriority : Prop :=
  (∀ s : State, s.run = .running → 253 < s.pc.toNat → step s = .next (raiseFault (.outOfBounds .mem 256) s)) ∧
  ∀ (s : State) (op a b : Byte), s.run = .running → s.Shows op a b →
    (op ∉ tableOpcodes → step s = .next (raiseFault (.invalidOpcode op s.pc) s)) ∧
    ((op ∈ formatROpcodes ∨ op = 0x82 ∨ op ∈ formatRROpcodes) → 8 ≤ a.toNat →
      step s = .next (raiseFault (.outOfBounds .reg (zext9 a)) s)) ∧
    (op ∈ formatRROpcodes → a.toNat < 8 → 8 ≤ b.toNat → step s = .next (raiseFault (.outOfBounds .reg (zext9 b)) s)) ∧
    ((op = 0x01 ∨ op = 0x11 ∨ ((op ∈ formatROpcodes ∨ op = 0x82) ∧ a.toNat < 8) ∨
        (op ∈ formatRROpcodes ∧ a.toNat < 8 ∧ b.toNat < 8)) →
      ∃ t, step s = .next t ∧ ∀ f, t.run ≠ .faulted f)

/-- R176 (decision D13): a step that ends in `Faulted(f)` changed `run` and nothing else. -/
def Obligations.FaultChangesOnlyTheRunState : Prop :=
  ∀ (s t : State) (f : FaultValue), step s = .next t → t.run = .faulted f →
    (SameRegs s t ∧ t.pc = s.pc ∧ t.sp = s.sp ∧ t.flags = s.flags ∧ t.mem = s.mem ∧ t.out = s.out) ∧
    stepOutput s = none ∧ (stepTransactions s).all (fun x => !x.we) = true

/-- R170 (decision D12): the only fault values a step can raise. -/
def Obligations.FaultRecordShapes : Prop :=
  ∀ (s t : State) (f : FaultValue), step s = .next t → t.run = .faulted f →
    (f = .outOfBounds .mem 256 ∧ 253 < s.pc.toNat) ∨
    (∃ op, f = .invalidOpcode op s.pc ∧ op = s.cell s.pc.toNat ∧ op ∉ tableOpcodes ∧ s.pc.toNat ≤ 253) ∨
    (∃ k, f = .outOfBounds .reg (zext9 k) ∧ 8 ≤ k.toNat ∧
      (k = s.cell (s.pc.toNat + 1) ∨ k = s.cell (s.pc.toNat + 2)) ∧ s.pc.toNat ≤ 253)

/-- R177: there is no return from a fault and no nesting; only reset leaves `Faulted`, and it starts a new run from the
reset state with no memory of the fault. -/
def Obligations.FaultedIsTerminalUntilReset : Prop :=
  (∀ (s t : State) (f : FaultValue), s.run = .faulted f → step s ≠ .next t) ∧
  (∀ s : State, s.assertReset.run = .running ∧ s.assertReset = launch s.mem) ∧
  (∀ s t : State, s.mem = t.mem → s.assertReset = t.assertReset)

/-- R20 (decision D17), R90: `Halted` is reached only by HLT and always by it, `Faulted(f)` only by a fault and always
by it, and no step starts outside `Running`. -/
def Obligations.RunStateTransitions : Prop :=
  ∀ s t : State, step s = .next t →
    s.run = .running ∧
    (t.run = .halted ↔ fetchDecode s = .ok .hlt) ∧
    (∀ f, t.run = .faulted f ↔ firstFault s = some f)

/-! ### Reset and launch -/

/-- R191: the entry point is address 0 and the first step fetches cells 0, 1 and 2; the initial run state is `Running`. -/
def Obligations.EntryPointIsAddressZero : Prop :=
  ∀ m0 : Memory, (launch m0).pc = 0 ∧ (launch m0).run = .running ∧
    (stepTransactions (launch m0)).take 3 = [.read 0 (m0.read 0), .read 1 (m0.read 1), .read 2 (m0.read 2)]

/-- R25, R190 (decisions D2, D8, D15, D16): what reset leaves, memory untouched. That `State.reset` has the all-zero
image is the model's choice (log entry 2). -/
def Obligations.ResetLeavesTheSpecifiedValues : Prop :=
  (∀ s : State, (∀ q, s.assertReset.reg q = 0) ∧ s.assertReset.pc = 0 ∧ s.assertReset.sp = 0 ∧
    s.assertReset.flags.e = false ∧ s.assertReset.flags.l = false ∧ s.assertReset.flags.g = false ∧
    s.assertReset.run = .running ∧ s.assertReset.out = [] ∧ s.assertReset.mem = s.mem) ∧
  (∀ x : Addr, State.reset.mem.read x = 0) ∧ State.reset = launch []

/-- R193 (decision D16): the loader's image is the program's bytes from address 0 upward and 0 elsewhere. The clause
`m.wf` is not the spec's: the canonical form is the model's (DESIGN CHOICE, log entry 11). That a longer listing gives no
image is the model's choice too (D22, log entry 8). -/
def Obligations.LoaderImage : Prop :=
  (∀ bytes : List Byte, bytes.length ≤ 256 → ∃ m, Memory.ofProgram bytes = some m ∧ m.wf ∧
    (∀ (k : Nat) (h : k < bytes.length), m.read (BitVec.ofNat 8 k) = bytes[k]) ∧
    (∀ k : Nat, bytes.length ≤ k → k < 256 → m.read (BitVec.ofNat 8 k) = 0)) ∧
  (∀ bytes : List Byte, 256 < bytes.length → Memory.ofProgram bytes = none)

/-! ### Invariants -/

/-- R25, R26: a launch from any canonical memory image meets the invariant, and so does the reset state. The canonical
form, premise and conclusion, is the model's (DESIGN CHOICE, log entry 11), and so is the reset memory (log entry 2); the
flags of the launch rest on decision D8. -/
def Obligations.LaunchMeetsTheInvariant : Prop :=
  (∀ m0 : Memory, m0.wf → (launch m0).Inv) ∧ State.reset.Inv

/-- R16, R18, R20, R26, R170, R176: every step from a state that meets the invariant gives one that meets it: `pc` at
most 256, at most one flag, canonical memory, and a run state that what stands at `pc` explains. The canonical form is
the model's (log entry 11); the flag bound rests on decision D7, the bound of `pc` on D4, the explained run state on D9,
D12 and D13. -/
def Obligations.EveryStepKeepsTheInvariant : Prop :=
  ∀ s t : State, s.Inv → step s = .next t → t.Inv

/-- R26 for `pc` and the flags, of every state a run reaches from a launch; the flag bound rests on decision D7, the
bound of `pc` on D4, the explained run state (R20, R170, R176) on D9, D12 and D13. The
premise `m0.wf` and the canonical memory in `Inv` are the model's (DESIGN CHOICE, log entry 11). -/
def Obligations.EveryRunKeepsTheInvariant : Prop :=
  ∀ (m0 : Memory) (k : Nat) (t : State), m0.wf → core.run k (launch m0) = .next t → t.Inv

/-- R26, R17 (decisions D7, D8): along any run from a launch, no flag is 1 exactly when no CMP has executed, and after
one exactly one is. -/
def Obligations.FlagsRecordWhetherACmpHasExecuted : Prop :=
  ∀ (m0 : Memory) (is : List Instr) (t : State), Trace (launch m0) is t →
    (countKind .cmp is = 0 → t.flags.count = 0) ∧ (0 < countKind .cmp is → t.flags.count = 1)

/-- R19 (decision D5): `sp` moves by one, modulo 256, up for PUSH and RET and down for POP and CALL, and for nothing
else; so balanced operations return it to where it was. -/
def Obligations.StackPointerCountsTheStackInstructions : Prop :=
  ∀ (s t : State) (is : List Instr), Trace s is t →
    (t.sp.toNat + countKind .pop is + countKind .call is) % 256 =
      (s.sp.toNat + countKind .push is + countKind .ret is) % 256 ∧
    (countKind .push is = countKind .pop is → countKind .call is = countKind .ret is → t.sp = s.sp)

/-- R21 (decision D15): the output history only grows at its end, by one value per executed PRN. -/
def Obligations.OutputHistoryGrowsOncePerPrn : Prop :=
  ∀ (s t : State) (is : List Instr), Trace s is t →
    ∃ vs : List Byte, t.out = s.out ++ vs ∧ vs.length = countKind .prn is

/-! ### Whole-machine rules -/

/-- R17: CMP alone writes a flag; JEQ and JNE alone read one; nothing reads `L` or `G`, so states that differ in them
only step alike, with the same port activity. -/
def Obligations.FlagsHaveOneWriterAndLGNoReader : Prop :=
  (∀ (i : Instr) (s t : State), exec i s = .next t → t.flags ≠ s.flags → ∃ a b, i = .cmp a b) ∧
  (∀ (i : Instr) (s t : State) (f : Flags), (∀ a, i ≠ .jeq a) → (∀ a, i ≠ .jne a) → exec i s = .next t →
    ∃ u, exec i { s with flags := f } = .next u ∧ u = { t with flags := u.flags }) ∧
  (∀ s t : State, SameButLG s t →
    stepTransactions t = stepTransactions s ∧ stepOutput t = stepOutput s ∧ t.statusPort = s.statusPort ∧
    ∀ s', step s = .next s' → ∃ t', step t = .next t' ∧ SameButLG s' t') ∧
  (∀ (s : State) (a : Byte) (h : a.toNat < 8), ∃ t u, exec (.jeq a) s = .next t ∧ exec (.jne a) s = .next u ∧
    (s.flags.e = true → t.pc = zext9 (s.reg ⟨a.toNat, h⟩) ∧ u.pc = s.pc + 2) ∧
    (s.flags.e = false → t.pc = s.pc + 2 ∧ u.pc = zext9 (s.reg ⟨a.toNat, h⟩)))

/-- R12, the column of writes: a register changes only as operand A of POP, LDI, ADD or MUL. -/
def Obligations.RegistersAreWrittenOnlyAsOperandA : Prop :=
  ∀ (i : Instr) (s t : State) (q : RegIdx), exec i s = .next t → t.reg q ≠ s.reg q →
    ∃ k : Byte, k.toNat = q.val ∧
      (i = .pop k ∨ (∃ imm, i = .ldi k imm) ∨ (∃ b, i = .add k b) ∨ (∃ b, i = .mul k b))

/-- R31: which parts of a step reach memory: three fetch reads, then the one store of PUSH or CALL or the one load of POP
or RET; no other instruction reads or writes memory. -/
def Obligations.MemoryAccessesOfAStep : Prop :=
  (∀ (s : State) (op a b : Byte) (i : Instr), s.run = .running → s.Shows op a b → decodeTriple op a b = .ok i →
    ∃ data : List MemTxn,
      stepTransactions s =
        [.read (BitVec.ofNat 8 s.pc.toNat) op, .read (BitVec.ofNat 8 (s.pc.toNat + 1)) a,
          .read (BitVec.ofNat 8 (s.pc.toNat + 2)) b] ++ data ∧
      (∀ (k : Byte) (h : k.toNat < 8), i = .push k → data = [.write (s.sp + 1) (s.reg ⟨k.toNat, h⟩)]) ∧
      (∀ k : Byte, k.toNat < 8 → i = .pop k → data = [.read s.sp (s.mem.read s.sp)]) ∧
      (∀ k : Byte, k.toNat < 8 → i = .call k → data = [.write (s.sp - 1) (low8 (s.pc + 2))]) ∧
      (i = .ret → data = [.read s.sp (s.mem.read s.sp)]) ∧
      (operandFault i ≠ none → data = []) ∧
      (i.kind ≠ .push → i.kind ≠ .pop → i.kind ≠ .call → i.kind ≠ .ret → data = [])) ∧
  (∀ (i : Instr) (s t : State), exec i s = .next t → t.mem ≠ s.mem → i.kind = .push ∨ i.kind = .call)

/-- R152, R153, R155, R156 (decision D3): what a step does to memory and to the output is exactly its port activity: the
memory after is the memory before with the step's transactions applied in order, the reads returned what memory held,
the output grew by the value on the output port; at most four transactions, at most one of them a write; and a state that
takes no step has no activity. -/
def Obligations.StepEffectEqualsItsPortActivity : Prop :=
  (∀ s t : State, step s = .next t →
    t.mem = (stepTransactions s).foldl MemTxn.apply s.mem ∧
    t.out = s.out ++ (stepOutput s).toList ∧
    (∀ x ∈ stepTransactions s, x.agrees s.mem = true) ∧
    (stepTransactions s).length ≤ 4 ∧ ((stepTransactions s).filter MemTxn.we).length ≤ 1) ∧
  (∀ s : State, s.run ≠ .running → stepTransactions s = [] ∧ stepOutput s = none)

/-- R15, R16 (decisions D4, D9): the next `pc` of every instruction, as an exact number with no wrap, at most 256; a
faulting step leaves it. -/
def Obligations.NextPcTable : Prop :=
  ∀ (s t : State) (op a b : Byte) (i : Instr), s.run = .running → s.Shows op a b → decodeTriple op a b = .ok i →
    step s = .next t →
    t.pc.toNat ≤ 256 ∧
    (operandFault i ≠ none → t.pc = s.pc) ∧
    (i = .hlt → t.pc = s.pc) ∧
    (i = .ret → t.pc.toNat = (s.mem.read s.sp).toNat) ∧
    (operandFault i = none → (i.kind = .push ∨ i.kind = .pop ∨ i.kind = .prn) → t.pc.toNat = s.pc.toNat + 2) ∧
    (∀ (k : Byte) (h : k.toNat < 8), (i = .call k ∨ i = .jmp k) → t.pc.toNat = (s.reg ⟨k.toNat, h⟩).toNat) ∧
    (∀ (k : Byte) (h : k.toNat < 8), i = .jeq k →
      t.pc.toNat = if s.flags.e = true then (s.reg ⟨k.toNat, h⟩).toNat else s.pc.toNat + 2) ∧
    (∀ (k : Byte) (h : k.toNat < 8), i = .jne k →
      t.pc.toNat = if s.flags.e = false then (s.reg ⟨k.toNat, h⟩).toNat else s.pc.toNat + 2) ∧
    (operandFault i = none → (i.kind = .ldi ∨ i.kind = .add ∨ i.kind = .mul ∨ i.kind = .cmp) →
      t.pc.toNat = s.pc.toNat + 3)

/-! ### The instructions, each with its result and its frame -/

/-- R90 (decision D9 for `pc`): HLT sets `run` to `Halted`, changes nothing else, and does not halt past the fetch limit. -/
def Obligations.HltHalts : Prop :=
  (∀ a b : Byte, decodeTriple 0x01 a b = .ok .hlt) ∧ FetchFaultClause ∧
  ∀ s : State, ∃ t, exec .hlt s = .next t ∧ t.run = .halted ∧
    SameRegs s t ∧ t.pc = s.pc ∧ t.sp = s.sp ∧ t.flags = s.flags ∧ t.mem = s.mem ∧ t.out = s.out

/-- R92 (decision D15): PRN appends the register's value to the output, `pc + 2`, and changes nothing else. -/
def Obligations.PrnEmitsTheRegister : Prop :=
  ∀ (s : State) (a : Byte) (h : a.toNat < 8), ∃ t, exec (.prn a) s = .next t ∧
    t.out = s.out ++ [s.reg ⟨a.toNat, h⟩] ∧ t.pc = s.pc + 2 ∧
    SameRegs s t ∧ t.sp = s.sp ∧ t.flags = s.flags ∧ t.run = s.run ∧ t.mem = s.mem

/-- R100 (decision D5): PUSH moves `sp` up by one modulo 256 and stores the register there; no other cell, register or
flag changes. -/
def Obligations.PushStoresAtTheNewStackPointer : Prop :=
  ∀ (s : State) (a : Byte) (h : a.toNat < 8), ∃ t, exec (.push a) s = .next t ∧
    s.pushAddr.toNat = (s.sp.toNat + 1) % 256 ∧ t.sp = s.pushAddr ∧
    t.mem.read s.pushAddr = s.reg ⟨a.toNat, h⟩ ∧ SameMemBut s.pushAddr s t ∧ t.pc = s.pc + 2 ∧
    SameRegs s t ∧ t.flags = s.flags ∧ t.run = s.run ∧ t.out = s.out

/-- R102 (decision D5): POP loads the register from the old `sp` and moves `sp` down by one modulo 256; memory and the
other registers are unchanged. -/
def Obligations.PopLoadsFromTheOldStackPointer : Prop :=
  ∀ (s : State) (a : Byte) (h : a.toNat < 8), ∃ t, exec (.pop a) s = .next t ∧
    t.reg ⟨a.toNat, h⟩ = s.mem.read s.sp ∧ t.sp.toNat = (s.sp.toNat + 255) % 256 ∧ t.pc = s.pc + 2 ∧
    SameRegsBut ⟨a.toNat, h⟩ s t ∧ SameMem s t ∧ t.flags = s.flags ∧ t.run = s.run ∧ t.out = s.out

/-- R110 (decision D5): CALL moves `sp` down by one modulo 256, stores the return address there, the whole of `pc + 2`
when `pc <= 253`, and jumps to the register's value. -/
def Obligations.CallSavesTheReturnAddressAndJumps : Prop :=
  ∀ (s : State) (a : Byte) (h : a.toNat < 8), ∃ t, exec (.call a) s = .next t ∧
    s.callAddr.toNat = (s.sp.toNat + 255) % 256 ∧ t.sp = s.callAddr ∧
    t.mem.read s.callAddr = low8 (s.pc + 2) ∧
    (s.pc.toNat ≤ 253 → (t.mem.read s.callAddr).toNat = s.pc.toNat + 2) ∧
    SameMemBut s.callAddr s t ∧ t.pc = zext9 (s.reg ⟨a.toNat, h⟩) ∧
    SameRegs s t ∧ t.flags = s.flags ∧ t.run = s.run ∧ t.out = s.out

/-- R113 (decision D5): RET jumps to the byte at the old `sp` and moves `sp` up by one modulo 256; registers and memory
are unchanged. -/
def Obligations.RetJumpsToTheSavedAddress : Prop :=
  ∀ s : State, ∃ t, exec .ret s = .next t ∧
    t.pc = zext9 (s.mem.read s.sp) ∧ t.sp.toNat = (s.sp.toNat + 1) % 256 ∧
    SameRegs s t ∧ SameMem s t ∧ t.flags = s.flags ∧ t.run = s.run ∧ t.out = s.out

/-- R116: JMP sets `pc` to the register's value and changes nothing else; with its encoding and both its faults. -/
def Obligations.JmpJumpsToTheRegister : Prop :=
  (∀ a b : Byte, decodeTriple 0x54 a b = .ok (.jmp a)) ∧ FetchFaultClause ∧
  (∀ (s : State) (a : Byte), 8 ≤ a.toNat → exec (.jmp a) s = .next (raiseFault (.outOfBounds .reg (zext9 a)) s)) ∧
  (∀ (s : State) (a : Byte) (h : a.toNat < 8), ∃ t, exec (.jmp a) s = .next t ∧
    t.pc = zext9 (s.reg ⟨a.toNat, h⟩) ∧
    SameRegs s t ∧ t.sp = s.sp ∧ t.flags = s.flags ∧ t.run = s.run ∧ t.mem = s.mem ∧ t.out = s.out)

/-- R118 (decision D11 for the check of an untaken jump): JEQ jumps if `E = 1`, else falls through; nothing but `pc`
changes. -/
def Obligations.JeqJumpsIfEqual : Prop :=
  ∀ (s : State) (a : Byte) (h : a.toNat < 8), ∃ t, exec (.jeq a) s = .next t ∧
    (s.flags.e = true → t.pc = zext9 (s.reg ⟨a.toNat, h⟩)) ∧ (s.flags.e = false → t.pc = s.pc + 2) ∧
    SameRegs s t ∧ t.sp = s.sp ∧ t.flags = s.flags ∧ t.run = s.run ∧ t.mem = s.mem ∧ t.out = s.out

/-- R120 (decision D11 for the check of an untaken jump): JNE jumps if `E = 0`, else falls through; nothing but `pc`
changes. -/
def Obligations.JneJumpsIfNotEqual : Prop :=
  ∀ (s : State) (a : Byte) (h : a.toNat < 8), ∃ t, exec (.jne a) s = .next t ∧
    (s.flags.e = false → t.pc = zext9 (s.reg ⟨a.toNat, h⟩)) ∧ (s.flags.e = true → t.pc = s.pc + 2) ∧
    SameRegs s t ∧ t.sp = s.sp ∧ t.flags = s.flags ∧ t.run = s.run ∧ t.mem = s.mem ∧ t.out = s.out

/-- R130: LDI writes the whole immediate byte to register A and advances `pc` by 3; other registers, `sp`, flags, memory
and output are unchanged; with its encoding and both its faults. -/
def Obligations.LdiLoadsTheImmediate : Prop :=
  (∀ a b : Byte, decodeTriple 0x82 a b = .ok (.ldi a b)) ∧ FetchFaultClause ∧
  (∀ (s : State) (a b : Byte), 8 ≤ a.toNat → exec (.ldi a b) s = .next (raiseFault (.outOfBounds .reg (zext9 a)) s)) ∧
  (∀ (s : State) (a b : Byte) (h : a.toNat < 8), ∃ t, exec (.ldi a b) s = .next t ∧
    t.reg ⟨a.toNat, h⟩ = b ∧ t.pc = s.pc + 3 ∧ SameRegsBut ⟨a.toNat, h⟩ s t ∧
    t.sp = s.sp ∧ t.flags = s.flags ∧ t.run = s.run ∧ t.mem = s.mem ∧ t.out = s.out)

/-- R135: ADD writes the sum modulo 256 to register A and advances `pc` by 3; no flag and no other register changes; with
its encoding and its faults, A before B. -/
def Obligations.AddWritesTheSumModulo256 : Prop :=
  (∀ a b : Byte, decodeTriple 0xA0 a b = .ok (.add a b)) ∧ FetchFaultClause ∧
  (∀ (s : State) (a b : Byte), 8 ≤ a.toNat → exec (.add a b) s = .next (raiseFault (.outOfBounds .reg (zext9 a)) s)) ∧
  (∀ (s : State) (a b : Byte), a.toNat < 8 → 8 ≤ b.toNat →
    exec (.add a b) s = .next (raiseFault (.outOfBounds .reg (zext9 b)) s)) ∧
  (∀ (s : State) (a b : Byte) (ha : a.toNat < 8) (hb : b.toNat < 8), ∃ t, exec (.add a b) s = .next t ∧
    (t.reg ⟨a.toNat, ha⟩).toNat = ((s.reg ⟨a.toNat, ha⟩).toNat + (s.reg ⟨b.toNat, hb⟩).toNat) % 256 ∧
    t.pc = s.pc + 3 ∧ SameRegsBut ⟨a.toNat, ha⟩ s t ∧
    t.sp = s.sp ∧ t.flags = s.flags ∧ t.run = s.run ∧ t.mem = s.mem ∧ t.out = s.out)

/-- R137: MUL writes the low 8 bits of the product to register A and advances `pc` by 3; no flag and no other register
changes; with its encoding and its faults, A before B. -/
def Obligations.MulWritesTheProductModulo256 : Prop :=
  (∀ a b : Byte, decodeTriple 0xA2 a b = .ok (.mul a b)) ∧ FetchFaultClause ∧
  (∀ (s : State) (a b : Byte), 8 ≤ a.toNat → exec (.mul a b) s = .next (raiseFault (.outOfBounds .reg (zext9 a)) s)) ∧
  (∀ (s : State) (a b : Byte), a.toNat < 8 → 8 ≤ b.toNat →
    exec (.mul a b) s = .next (raiseFault (.outOfBounds .reg (zext9 b)) s)) ∧
  (∀ (s : State) (a b : Byte) (ha : a.toNat < 8) (hb : b.toNat < 8), ∃ t, exec (.mul a b) s = .next t ∧
    (t.reg ⟨a.toNat, ha⟩).toNat = ((s.reg ⟨a.toNat, ha⟩).toNat * (s.reg ⟨b.toNat, hb⟩).toNat) % 256 ∧
    t.pc = s.pc + 3 ∧ SameRegsBut ⟨a.toNat, ha⟩ s t ∧
    t.sp = s.sp ∧ t.flags = s.flags ∧ t.run = s.run ∧ t.mem = s.mem ∧ t.out = s.out)

/-- R139 (decision D7: all three flags are written): CMP sets E, L, G by the unsigned comparison, whatever they were, so
exactly one is 1; registers, `sp` and memory are unchanged. -/
def Obligations.CmpWritesAllThreeFlags : Prop :=
  ∀ (s : State) (a b : Byte) (ha : a.toNat < 8) (hb : b.toNat < 8), ∃ t, exec (.cmp a b) s = .next t ∧
    (t.flags.e = true ↔ (s.reg ⟨a.toNat, ha⟩).toNat = (s.reg ⟨b.toNat, hb⟩).toNat) ∧
    (t.flags.l = true ↔ (s.reg ⟨a.toNat, ha⟩).toNat < (s.reg ⟨b.toNat, hb⟩).toNat) ∧
    (t.flags.g = true ↔ (s.reg ⟨a.toNat, ha⟩).toNat > (s.reg ⟨b.toNat, hb⟩).toNat) ∧
    t.flags.count = 1 ∧ t.pc = s.pc + 3 ∧
    SameRegs s t ∧ t.sp = s.sp ∧ t.run = s.run ∧ t.mem = s.mem ∧ t.out = s.out

/-! ### Instructions together -/

/-- R99: the four stack instructions do not move `sp` the same way: PUSH adds 1 then writes, POP reads then subtracts 1,
CALL subtracts 1 then writes, RET reads then adds 1; one `sp` serves all, modulo 256. -/
def Obligations.StackDirections : Prop :=
  ∀ (s : State) (a : Byte) (h : a.toNat < 8), ∃ p q c r : State,
    exec (.push a) s = .next p ∧ p.sp.toNat = (s.sp.toNat + 1) % 256 ∧ p.mem.read p.sp = s.reg ⟨a.toNat, h⟩ ∧
    exec (.pop a) s = .next q ∧ q.reg ⟨a.toNat, h⟩ = s.mem.read s.sp ∧ q.sp.toNat = (s.sp.toNat + 255) % 256 ∧
    exec (.call a) s = .next c ∧ c.sp.toNat = (s.sp.toNat + 255) % 256 ∧ c.mem.read c.sp = low8 (s.pc + 2) ∧
    exec .ret s = .next r ∧ r.pc = zext9 (s.mem.read s.sp) ∧ r.sp.toNat = (s.sp.toNat + 1) % 256

/-- R104, derived by the spec from R100 and R102: a PUSH at `pc` with a POP right after it, where the PUSH does not
overwrite the POP's opcode or operand cell: two steps give the POP's register the pushed value and `sp` back, for every
`sp` (decision D5). -/
def Obligations.PushThenPopRoundTrip : Prop :=
  ∀ (s : State) (a b : Byte) (ha : a.toNat < 8) (hb : b.toNat < 8), s.run = .running → s.pc.toNat ≤ 251 →
    s.cell s.pc.toNat = 0x45 → s.cell (s.pc.toNat + 1) = a →
    s.cell (s.pc.toNat + 2) = 0x46 → s.cell (s.pc.toNat + 3) = b →
    s.pushAddr.toNat ≠ s.pc.toNat + 2 → s.pushAddr.toNat ≠ s.pc.toNat + 3 →
    ∃ t u, step s = .next t ∧ step t = .next u ∧
      u.reg ⟨b.toNat, hb⟩ = s.reg ⟨a.toNat, ha⟩ ∧ SameRegsBut ⟨b.toNat, hb⟩ s u ∧
      u.sp = s.sp ∧ u.pc.toNat = s.pc.toNat + 4 ∧ u.run = .running

/-- R114, derived by the spec from R110 and R113: CALL jumps to the register's value, and a RET from any later state with
`sp` and the saved cell as they were at the subroutine's entry resumes at `pc + 2` with `sp` back (decision D5).
-/
def Obligations.CallThenRetRoundTrip : Prop :=
  ∀ (s : State) (a : Byte) (h : a.toNat < 8), s.pc.toNat ≤ 253 →
    ∃ t, exec (.call a) s = .next t ∧ t.pc = zext9 (s.reg ⟨a.toNat, h⟩) ∧
      ∀ u : State, u.sp = t.sp → u.mem.read t.sp = t.mem.read t.sp →
        ∃ v, exec .ret u = .next v ∧ v.pc.toNat = s.pc.toNat + 2 ∧ v.sp = s.sp

/-- R121, derived by the spec from R118, R120 and R139 (decision D7): CMP, then a conditional jump, whatever CMPs came
before. -/
def Obligations.CompareThenBranch : Prop :=
  ∀ (s : State) (a b c : Byte) (ha : a.toNat < 8) (hb : b.toNat < 8) (hc : c.toNat < 8),
    ∃ t eq ne, exec (.cmp a b) s = .next t ∧ exec (.jeq c) t = .next eq ∧ exec (.jne c) t = .next ne ∧
      (s.reg ⟨a.toNat, ha⟩ < s.reg ⟨b.toNat, hb⟩ →
        t.flags = { e := false, l := true, g := false } ∧ ne.pc = zext9 (s.reg ⟨c.toNat, hc⟩) ∧ eq.pc = s.pc + 5) ∧
      (s.reg ⟨a.toNat, ha⟩ = s.reg ⟨b.toNat, hb⟩ →
        t.flags = { e := true, l := false, g := false } ∧ eq.pc = zext9 (s.reg ⟨c.toNat, hc⟩) ∧ ne.pc = s.pc + 5) ∧
      (s.reg ⟨b.toNat, hb⟩ < s.reg ⟨a.toNat, ha⟩ →
        t.flags = { e := false, l := false, g := true } ∧ ne.pc = zext9 (s.reg ⟨c.toNat, hc⟩) ∧ eq.pc = s.pc + 5)

/-- R42, R38: what PUSH or CALL stored is seen by the fetch of the very next step: each byte of it is the stored one where
the address is the stored cell, and the old one elsewhere. The stored cell is `sp + 1` or `sp - 1` modulo 256 (decision D5). -/
def Obligations.NextFetchSeesTheStore : Prop :=
  (∀ (s t : State) (a : Byte) (h : a.toNat < 8), exec (.push a) s = .next t → t.pc.toNat ≤ 253 →
    ∀ seen : Nat → Byte, (∀ n, seen n = if BitVec.ofNat 8 n = s.pushAddr then s.reg ⟨a.toNat, h⟩ else s.cell n) →
      fetch t = .ok { op := seen t.pc.toNat, a := seen (t.pc.toNat + 1), b := seen (t.pc.toNat + 2) }) ∧
  (∀ (s t : State) (a : Byte), a.toNat < 8 → exec (.call a) s = .next t → t.pc.toNat ≤ 253 →
    ∀ seen : Nat → Byte, (∀ n, seen n = if BitVec.ofNat 8 n = s.callAddr then low8 (s.pc + 2) else s.cell n) →
      fetch t = .ok { op := seen t.pc.toNat, a := seen (t.pc.toNat + 1), b := seen (t.pc.toNat + 2) })

/-- R196, first two cases, derived by the spec: two PUSHes then a CALL lose the first pushed value, and after the RET two
POPs give the second value and then the return address; a PUSH in a subroutine overwrites the caller's top cell. `sp` is
modulo 256 (decision D5). -/
def Obligations.MixedStackUseOverwrites : Prop :=
  (∀ (s : State) (a b c d e : Byte) (ha : a.toNat < 8) (hb : b.toNat < 8) (_ : c.toNat < 8) (hd : d.toNat < 8)
      (he : e.toNat < 8),
    ∃ t1 t2 t3 t4 t5 t6 : State, exec (.push a) s = .next t1 ∧ exec (.push b) t1 = .next t2 ∧
      exec (.call c) t2 = .next t3 ∧ exec .ret t3 = .next t4 ∧ exec (.pop d) t4 = .next t5 ∧
      exec (.pop e) t5 = .next t6 ∧
      t2.mem.read (s.sp + 1) = s.reg ⟨a.toNat, ha⟩ ∧ t3.mem.read (s.sp + 1) = low8 (t2.pc + 2) ∧
      t3.sp = s.sp + 1 ∧ t4.sp = s.sp + 2 ∧ t5.reg ⟨d.toNat, hd⟩ = s.reg ⟨b.toNat, hb⟩ ∧
      t6.reg ⟨e.toNat, he⟩ = low8 (t2.pc + 2) ∧ t6.sp = s.sp) ∧
  (∀ (s : State) (a b : Byte) (_ : a.toNat < 8) (hb : b.toNat < 8), ∃ t u : State,
    exec (.call a) s = .next t ∧ exec (.push b) t = .next u ∧ u.sp = s.sp ∧
      u.mem.read s.sp = s.reg ⟨b.toNat, hb⟩)

/-- R134, R141: the ALU's three operations on values, and an instruction that names one register twice reads it before it
writes it: ADD doubles, MUL squares. That CMP then leaves `E` alone 1, whatever the flags were, is R139 with decision D7
(log entry 6). -/
def Obligations.AluOperations : Prop :=
  (∀ x y : Byte, (∃ v, aluResult .add x y = some v ∧ v.toNat = (x.toNat + y.toNat) % 256) ∧
    (∃ v, aluResult .mul x y = some v ∧ v.toNat = (x.toNat * y.toNat) % 256) ∧ aluResult .cmp x y = none) ∧
  (∀ (s : State) (a : Byte) (h : a.toNat < 8), ∃ t u v, exec (.add a a) s = .next t ∧ exec (.mul a a) s = .next u ∧
    exec (.cmp a a) s = .next v ∧
    (t.reg ⟨a.toNat, h⟩).toNat = 2 * (s.reg ⟨a.toNat, h⟩).toNat % 256 ∧
    (u.reg ⟨a.toNat, h⟩).toNat = (s.reg ⟨a.toNat, h⟩).toNat ^ 2 % 256 ∧
    v.flags = { e := true, l := false, g := false })

/-! ### Memory and ports -/

/-- R30, with the canonical form that is the model's (log entry 11): two canonical memories that read alike in all 256
cells are the same data. -/
def Obligations.CanonicalMemoriesThatReadAlikeAreEqual : Prop :=
  ∀ m n : Memory, m.wf → n.wf → (∀ x : Addr, m.read x = n.read x) → m = n

/-- R151, R154, R170 (decisions D2, D12): the status port's codes. That the fields that are not valid read as none is the
model's choice (log entry 7). -/
def Obligations.StatusPortCodes : Prop :=
  ∀ s : State,
    (s.run = .running → s.statusPort = { runState := 0, faultKind := 0, faultSpace := none, faultInfo := none, pcOut := s.pc }) ∧
    (s.run = .halted → s.statusPort = { runState := 1, faultKind := 0, faultSpace := none, faultInfo := none, pcOut := s.pc }) ∧
    (∀ n, s.run = .faulted (.outOfBounds .mem n) →
      s.statusPort = { runState := 2, faultKind := 1, faultSpace := some 0, faultInfo := some n, pcOut := s.pc }) ∧
    (∀ n, s.run = .faulted (.outOfBounds .reg n) →
      s.statusPort = { runState := 2, faultKind := 1, faultSpace := some 1, faultInfo := some n, pcOut := s.pc }) ∧
    (∀ op p, s.run = .faulted (.invalidOpcode op p) →
      s.statusPort = { runState := 2, faultKind := 2, faultSpace := none, faultInfo := some (zext9 op), pcOut := s.pc })
end

