-- ==== Sys2Proof/Laws/State.lean ====
section
/-!
SUPPORT. One lemma per field per update of the state, so that no later proof unfolds a record update.
-/

namespace Sys2Proof.Machine

/-! `setReg` -/

@[simp] theorem State.setReg_regs (s : State) (r : RegIdx) (v : Byte) : (s.setReg r v).regs = s.regs.set r v := rfl
@[simp] theorem State.setReg_pc (s : State) (r : RegIdx) (v : Byte) : (s.setReg r v).pc = s.pc := rfl
@[simp] theorem State.setReg_sp (s : State) (r : RegIdx) (v : Byte) : (s.setReg r v).sp = s.sp := rfl
@[simp] theorem State.setReg_flags (s : State) (r : RegIdx) (v : Byte) : (s.setReg r v).flags = s.flags := rfl
@[simp] theorem State.setReg_run (s : State) (r : RegIdx) (v : Byte) : (s.setReg r v).run = s.run := rfl
@[simp] theorem State.setReg_mem (s : State) (r : RegIdx) (v : Byte) : (s.setReg r v).mem = s.mem := rfl
@[simp] theorem State.setReg_out (s : State) (r : RegIdx) (v : Byte) : (s.setReg r v).out = s.out := rfl

/-! `advance` -/

@[simp] theorem State.advance_regs (s : State) (n : Pc) : (s.advance n).regs = s.regs := rfl
@[simp] theorem State.advance_pc (s : State) (n : Pc) : (s.advance n).pc = s.pc + n := rfl
@[simp] theorem State.advance_sp (s : State) (n : Pc) : (s.advance n).sp = s.sp := rfl
@[simp] theorem State.advance_flags (s : State) (n : Pc) : (s.advance n).flags = s.flags := rfl
@[simp] theorem State.advance_run (s : State) (n : Pc) : (s.advance n).run = s.run := rfl
@[simp] theorem State.advance_mem (s : State) (n : Pc) : (s.advance n).mem = s.mem := rfl
@[simp] theorem State.advance_out (s : State) (n : Pc) : (s.advance n).out = s.out := rfl
@[simp] theorem State.advance_reg (s : State) (n : Pc) (q : RegIdx) : (s.advance n).reg q = s.reg q := rfl

/-! `jump` -/

@[simp] theorem State.jump_regs (s : State) (t : Byte) : (s.jump t).regs = s.regs := rfl
@[simp] theorem State.jump_pc (s : State) (t : Byte) : (s.jump t).pc = zext9 t := rfl
@[simp] theorem State.jump_sp (s : State) (t : Byte) : (s.jump t).sp = s.sp := rfl
@[simp] theorem State.jump_flags (s : State) (t : Byte) : (s.jump t).flags = s.flags := rfl
@[simp] theorem State.jump_run (s : State) (t : Byte) : (s.jump t).run = s.run := rfl
@[simp] theorem State.jump_mem (s : State) (t : Byte) : (s.jump t).mem = s.mem := rfl
@[simp] theorem State.jump_out (s : State) (t : Byte) : (s.jump t).out = s.out := rfl
@[simp] theorem State.jump_reg (s : State) (t : Byte) (q : RegIdx) : (s.jump t).reg q = s.reg q := rfl

/-! `emit` -/

@[simp] theorem State.emit_regs (s : State) (v : Byte) : (s.emit v).regs = s.regs := rfl
@[simp] theorem State.emit_pc (s : State) (v : Byte) : (s.emit v).pc = s.pc := rfl
@[simp] theorem State.emit_sp (s : State) (v : Byte) : (s.emit v).sp = s.sp := rfl
@[simp] theorem State.emit_flags (s : State) (v : Byte) : (s.emit v).flags = s.flags := rfl
@[simp] theorem State.emit_run (s : State) (v : Byte) : (s.emit v).run = s.run := rfl
@[simp] theorem State.emit_mem (s : State) (v : Byte) : (s.emit v).mem = s.mem := rfl
@[simp] theorem State.emit_out (s : State) (v : Byte) : (s.emit v).out = s.out ++ [v] := rfl
@[simp] theorem State.emit_reg (s : State) (v : Byte) (q : RegIdx) : (s.emit v).reg q = s.reg q := rfl

/-! `halt` -/

@[simp] theorem State.halt_regs (s : State) : (s.halt).regs = s.regs := rfl
@[simp] theorem State.halt_pc (s : State) : (s.halt).pc = s.pc := rfl
@[simp] theorem State.halt_sp (s : State) : (s.halt).sp = s.sp := rfl
@[simp] theorem State.halt_flags (s : State) : (s.halt).flags = s.flags := rfl
@[simp] theorem State.halt_run (s : State) : (s.halt).run = .halted := rfl
@[simp] theorem State.halt_mem (s : State) : (s.halt).mem = s.mem := rfl
@[simp] theorem State.halt_out (s : State) : (s.halt).out = s.out := rfl
@[simp] theorem State.halt_reg (s : State) (q : RegIdx) : (s.halt).reg q = s.reg q := rfl

/-! `storeAtNewSp` -/

@[simp] theorem State.storeAtNewSp_regs (s : State) (a : Addr) (v : Byte) : (s.storeAtNewSp a v).regs = s.regs := rfl
@[simp] theorem State.storeAtNewSp_pc (s : State) (a : Addr) (v : Byte) : (s.storeAtNewSp a v).pc = s.pc := rfl
@[simp] theorem State.storeAtNewSp_sp (s : State) (a : Addr) (v : Byte) : (s.storeAtNewSp a v).sp = a := rfl
@[simp] theorem State.storeAtNewSp_flags (s : State) (a : Addr) (v : Byte) : (s.storeAtNewSp a v).flags = s.flags := rfl
@[simp] theorem State.storeAtNewSp_run (s : State) (a : Addr) (v : Byte) : (s.storeAtNewSp a v).run = s.run := rfl
@[simp] theorem State.storeAtNewSp_mem (s : State) (a : Addr) (v : Byte) : (s.storeAtNewSp a v).mem = s.mem.write a v := rfl
@[simp] theorem State.storeAtNewSp_out (s : State) (a : Addr) (v : Byte) : (s.storeAtNewSp a v).out = s.out := rfl
@[simp] theorem State.storeAtNewSp_reg (s : State) (a : Addr) (v : Byte) (q : RegIdx) : (s.storeAtNewSp a v).reg q = s.reg q := rfl

/-! `setSp` -/

@[simp] theorem State.setSp_regs (s : State) (v : Byte) : (s.setSp v).regs = s.regs := rfl
@[simp] theorem State.setSp_pc (s : State) (v : Byte) : (s.setSp v).pc = s.pc := rfl
@[simp] theorem State.setSp_sp (s : State) (v : Byte) : (s.setSp v).sp = v := rfl
@[simp] theorem State.setSp_flags (s : State) (v : Byte) : (s.setSp v).flags = s.flags := rfl
@[simp] theorem State.setSp_run (s : State) (v : Byte) : (s.setSp v).run = s.run := rfl
@[simp] theorem State.setSp_mem (s : State) (v : Byte) : (s.setSp v).mem = s.mem := rfl
@[simp] theorem State.setSp_out (s : State) (v : Byte) : (s.setSp v).out = s.out := rfl
@[simp] theorem State.setSp_reg (s : State) (v : Byte) (q : RegIdx) : (s.setSp v).reg q = s.reg q := rfl

/-! `placeAtPc` -/

@[simp] theorem State.placeAtPc_regs (s : State) (op a b : Byte) : (s.placeAtPc op a b).regs = s.regs := rfl
@[simp] theorem State.placeAtPc_pc (s : State) (op a b : Byte) : (s.placeAtPc op a b).pc = s.pc := rfl
@[simp] theorem State.placeAtPc_sp (s : State) (op a b : Byte) : (s.placeAtPc op a b).sp = s.sp := rfl
@[simp] theorem State.placeAtPc_flags (s : State) (op a b : Byte) : (s.placeAtPc op a b).flags = s.flags := rfl
@[simp] theorem State.placeAtPc_run (s : State) (op a b : Byte) : (s.placeAtPc op a b).run = s.run := rfl
@[simp] theorem State.placeAtPc_mem (s : State) (op a b : Byte) : (s.placeAtPc op a b).mem = ((s.mem.write (s.fetchAddr 0) op).write (s.fetchAddr 1) a).write (s.fetchAddr 2) b := rfl
@[simp] theorem State.placeAtPc_out (s : State) (op a b : Byte) : (s.placeAtPc op a b).out = s.out := rfl
@[simp] theorem State.placeAtPc_reg (s : State) (op a b : Byte) (q : RegIdx) : (s.placeAtPc op a b).reg q = s.reg q := rfl

/-! `launch` -/

@[simp] theorem launch_regs (m0 : Memory) : (launch m0).regs = Vector.replicate 8 0 := rfl
@[simp] theorem launch_pc (m0 : Memory) : (launch m0).pc = 0 := rfl
@[simp] theorem launch_sp (m0 : Memory) : (launch m0).sp = 0 := rfl
@[simp] theorem launch_flags (m0 : Memory) : (launch m0).flags = { e := false, l := false, g := false } := rfl
@[simp] theorem launch_run (m0 : Memory) : (launch m0).run = .running := rfl
@[simp] theorem launch_mem (m0 : Memory) : (launch m0).mem = m0 := rfl
@[simp] theorem launch_out (m0 : Memory) : (launch m0).out = [] := rfl

/-! `raiseFault` -/

@[simp] theorem raiseFault_regs (f : FaultValue) (s : State) : (raiseFault f s).regs = s.regs := rfl
@[simp] theorem raiseFault_pc (f : FaultValue) (s : State) : (raiseFault f s).pc = s.pc := rfl
@[simp] theorem raiseFault_sp (f : FaultValue) (s : State) : (raiseFault f s).sp = s.sp := rfl
@[simp] theorem raiseFault_flags (f : FaultValue) (s : State) : (raiseFault f s).flags = s.flags := rfl
@[simp] theorem raiseFault_run (f : FaultValue) (s : State) : (raiseFault f s).run = .faulted f := rfl
@[simp] theorem raiseFault_mem (f : FaultValue) (s : State) : (raiseFault f s).mem = s.mem := rfl
@[simp] theorem raiseFault_out (f : FaultValue) (s : State) : (raiseFault f s).out = s.out := rfl
@[simp] theorem raiseFault_reg (f : FaultValue) (s : State) (q : RegIdx) : (raiseFault f s).reg q = s.reg q := rfl

/-! `assertReset` -/

@[simp] theorem State.assertReset_regs (s : State) : (s.assertReset).regs = Vector.replicate 8 0 := rfl
@[simp] theorem State.assertReset_pc (s : State) : (s.assertReset).pc = 0 := rfl
@[simp] theorem State.assertReset_sp (s : State) : (s.assertReset).sp = 0 := rfl
@[simp] theorem State.assertReset_flags (s : State) : (s.assertReset).flags = { e := false, l := false, g := false } := rfl
@[simp] theorem State.assertReset_run (s : State) : (s.assertReset).run = .running := rfl
@[simp] theorem State.assertReset_mem (s : State) : (s.assertReset).mem = s.mem := rfl
@[simp] theorem State.assertReset_out (s : State) : (s.assertReset).out = [] := rfl

/-! Registers -/

@[simp] theorem State.reg_setReg_same (s : State) (r : RegIdx) (v : Byte) : (s.setReg r v).reg r = v := by
  simp [State.reg]

theorem State.reg_setReg (s : State) (r q : RegIdx) (v : Byte) :
    (s.setReg r v).reg q = if r = q then v else s.reg q := by
  simp [State.reg, Vector.getElem_set, Fin.val_inj]

@[simp] theorem launch_reg (m0 : Memory) (q : RegIdx) : (launch m0).reg q = 0 := by
  simp [State.reg]

@[simp] theorem State.withRun_reg (s : State) (r : RunState) (q : RegIdx) :
    State.reg { s with run := r } q = s.reg q := rfl

/-- Two states are equal when every part of the bundle is (spec/10_state.md R10). -/
theorem State.ext_reg {s t : State} (hr : ∀ q, s.reg q = t.reg q) (hpc : s.pc = t.pc) (hsp : s.sp = t.sp)
    (hf : s.flags = t.flags) (hrun : s.run = t.run) (hm : s.mem = t.mem) (ho : s.out = t.out) : s = t := by
  cases s; cases t
  simp only at hpc hsp hf hrun hm ho
  subst hpc hsp hf hrun hm ho
  congr 1
  refine Vector.ext fun i hi => ?_
  exact hr ⟨i, hi⟩

end Sys2Proof.Machine
end

