-- ==== Sys2Proof/Laws/Alu.lean ====
section
/-!
SUPPORT. The ALU instruction's one operation, part by part (spec/45_alu.md R134 to R139).
-/

namespace Sys2Proof.Machine

@[simp] theorem State.aluStep_pc (s : State) (op : AluOp) (ra rb : RegIdx) : (s.aluStep op ra rb).pc = s.pc + 3 := rfl

@[simp] theorem State.aluStep_flags (s : State) (op : AluOp) (ra rb : RegIdx) :
    (s.aluStep op ra rb).flags = aluFlags op s.flags (s.reg ra) (s.reg rb) := rfl

@[simp] theorem State.aluStep_sp (s : State) (op : AluOp) (ra rb : RegIdx) : (s.aluStep op ra rb).sp = s.sp := by
  cases op <;> rfl

@[simp] theorem State.aluStep_run (s : State) (op : AluOp) (ra rb : RegIdx) : (s.aluStep op ra rb).run = s.run := by
  cases op <;> rfl

@[simp] theorem State.aluStep_mem (s : State) (op : AluOp) (ra rb : RegIdx) : (s.aluStep op ra rb).mem = s.mem := by
  cases op <;> rfl

@[simp] theorem State.aluStep_out (s : State) (op : AluOp) (ra rb : RegIdx) : (s.aluStep op ra rb).out = s.out := by
  cases op <;> rfl

/-- Only the destination register changes, to the ALU's result, both operands read before. -/
theorem State.aluStep_reg (s : State) (op : AluOp) (ra rb q : RegIdx) :
    (s.aluStep op ra rb).reg q =
      if ra = q then (aluResult op (s.reg ra) (s.reg rb)).getD (s.reg q) else s.reg q := by
  cases op
  · exact (State.reg_setReg s ra q _)
  · exact (State.reg_setReg s ra q _)
  · simp [aluResult]; rfl

/-- The three comparison bits exclude each other and one of them holds (spec/45_alu.md R139). -/
theorem aluCompare_cases (x y : Byte) :
    (x.toNat < y.toNat ∧ aluCompare x y = { e := false, l := true, g := false }) ∨
    (x.toNat = y.toNat ∧ aluCompare x y = { e := true, l := false, g := false }) ∨
    (y.toNat < x.toNat ∧ aluCompare x y = { e := false, l := false, g := true }) := by
  rcases Nat.lt_trichotomy x.toNat y.toNat with h | h | h
  · exact .inl ⟨h, by simp only [aluCompare, Flags.mk.injEq, decide_eq_true_eq, decide_eq_false_iff_not]; omega⟩
  · exact .inr (.inl ⟨h, by simp only [aluCompare, Flags.mk.injEq, decide_eq_true_eq, decide_eq_false_iff_not]; omega⟩)
  · exact .inr (.inr ⟨h, by simp only [aluCompare, Flags.mk.injEq, decide_eq_true_eq, decide_eq_false_iff_not]; omega⟩)

/-- On this hardware CMP's flags do not depend on the old ones (decision D7). -/
@[simp] theorem aluFlags_cmp (old : Flags) (x y : Byte) : aluFlags .cmp old x y = aluCompare x y := by
  simp [aluFlags, cmpFlags, Config.cmpSticky]

end Sys2Proof.Machine
end

