-- ==== Sys2Proof/Laws/Config.lean ====
section
/-!
SUPPORT. The parameters of spec/00_scope.md R4 fit each other and the types that carry them.
-/

namespace Sys2Proof

theorem byte_width : Byte = BitVec Config.xlen := rfl

theorem cell_width : Byte = BitVec Config.cellBits := rfl

theorem addr_width : Addr = BitVec Config.addrBits := rfl

theorem pc_width : Pc = BitVec Config.pcBits := rfl

theorem sp_width : Byte = BitVec Config.spBits := rfl

theorem regIdx_count : RegIdx = Fin Config.nRegs := rfl

theorem memCells_eq : Config.memCells = 2 ^ Config.addrBits := rfl

theorem maxFetchPc_eq : Config.maxFetchPc = 253 := rfl

end Sys2Proof
end

