-- ==== Sys2Proof/Laws/Decode.lean ====
section
/-!
SUPPORT. The decoder: no two rows of the opcode map overlap, the map and the encoder's opcode column agree, and when a
triple is refused.
-/

namespace Sys2Proof

/-- The 13 opcode values are distinct, so the map is a function (spec/30_encoding.md R55). -/
theorem opcodeTable_distinct : opcodeTable.Pairwise (fun r q => r.1 ≠ q.1) := by decide

theorem opcodeTable_length : opcodeTable.length = Config.nOpcodes := by decide

theorem lookupOpcode_opcode (k : Kind) : lookupOpcode k.opcode = some k := by cases k <;> rfl

theorem opcode_of_lookupOpcode {op : Byte} {k : Kind} (h : lookupOpcode op = some k) : op = k.opcode := by
  unfold lookupOpcode at h
  rw [Option.map_eq_some_iff] at h
  obtain ⟨row, hfind, rfl⟩ := h
  have hmem := List.mem_of_find?_eq_some hfind
  have heq : (row.1 == op) = true := List.find?_some (p := fun r : Byte × Kind => r.1 == op) hfind
  have hrows : ∀ r ∈ opcodeTable, r.1 = r.2.opcode := by decide
  rw [← hrows row hmem]
  exact (beq_iff_eq.1 heq).symm

/-- The lookup fails exactly on the bytes outside the table (R57). -/
theorem lookupOpcode_eq_none_iff (op : Byte) : lookupOpcode op = none ↔ op ∉ opcodeTable.map (·.1) := by
  rw [lookupOpcode, Option.map_eq_none_iff, List.find?_eq_none, List.mem_map]
  simp only [beq_iff_eq, not_exists, not_and]

theorem decodeTriple_of_lookup {op : Byte} {k : Kind} (h : lookupOpcode op = some k) (a b : Byte) :
    decodeTriple op a b = .ok (k.build a b) := by simp [decodeTriple, decodeRecord, h]

theorem decodeTriple_of_lookup_none {op : Byte} (h : lookupOpcode op = none) (a b : Byte) :
    decodeTriple op a b = .error (.invalidOpcode op) := by simp [decodeTriple, decodeRecord, h]

end Sys2Proof
end

