-- ==== Sys2Proof/Laws/Memory.lean ====
section
/-!
SUPPORT. Memory: a read after a write, and that every operation keeps the canonical form.
-/

namespace Sys2Proof.Machine

@[simp] theorem Memory.read_nil (a : Addr) : Memory.read [] a = Memory.unlisted := rfl

theorem Memory.eraseCell_cons (c : Host.Cell) (m : Memory) (n : Nat) :
    Memory.eraseCell (c :: m) n = if c.1 = n then m.eraseCell n else c :: m.eraseCell n := by
  unfold eraseCell; by_cases h : c.1 = n <;> simp [h]

theorem Memory.readCell_eraseCell (m : Memory) (n k : Nat) :
    (m.eraseCell n).readCell k = if n = k then Memory.unlisted else m.readCell k := by
  induction m with
  | nil => simp [eraseCell, readCell]
  | cons c m ih =>
    rw [eraseCell_cons]
    split
    · rename_i hc
      rw [ih]
      split
      · rfl
      · rename_i hnk; simp [readCell, hc, hnk]
    · rename_i hc
      simp only [readCell, ih]
      by_cases hk : c.1 = k
      · have hnk : n ≠ k := fun e => hc (hk.trans e.symm)
        simp [hk, hnk]
      · simp [hk]

theorem Memory.readCell_insertCell (m : Memory) (n k : Nat) (v : Byte) (h : ∀ c ∈ m, c.1 ≠ n) :
    (m.insertCell n v).readCell k = if n = k then v else m.readCell k := by
  induction m with
  | nil => simp [insertCell, readCell]
  | cons c m ih =>
    simp only [List.mem_cons, forall_eq_or_imp] at h
    simp only [insertCell]
    split
    · simp [readCell]
    · simp only [readCell, ih h.2]
      by_cases hk : c.1 = k
      · have hnk : n ≠ k := fun e => h.1 (hk.trans e.symm)
        simp [hk, hnk]
      · simp [hk]

theorem Memory.eraseCell_ne (m : Memory) (n : Nat) : ∀ c ∈ m.eraseCell n, c.1 ≠ n := by
  intro c hc; simpa [eraseCell] using (List.mem_filter.mp hc).2

/-- One spec of a write: what every cell reads as afterwards (spec/20_memory.md R32). -/
theorem Memory.read_write (m : Memory) (a b : Addr) (v : Byte) :
    (m.write a v).read b = if a = b then v else m.read b := by
  have hab : a.toNat = b.toNat ↔ a = b := BitVec.toNat_inj
  unfold write read
  split
  · rename_i hv; simp [readCell_eraseCell, hab, hv]
  · rw [readCell_insertCell _ _ _ _ (eraseCell_ne m _), readCell_eraseCell]; simp only [hab]; split <;> rfl

@[simp] theorem Memory.read_write_same (m : Memory) (a : Addr) (v : Byte) : (m.write a v).read a = v := by
  simp [read_write]

theorem Memory.read_write_other (m : Memory) {a b : Addr} (v : Byte) (h : b ≠ a) :
    (m.write a v).read b = m.read b := by
  simp [read_write, h.symm]

theorem Memory.wf_nil : Memory.wf [] := ⟨List.Pairwise.nil, by simp⟩

theorem Memory.wf_eraseCell {m : Memory} (h : m.wf) (n : Nat) : (m.eraseCell n).wf :=
  ⟨h.1.sublist List.filter_sublist, fun c hc => h.2 c (List.mem_filter.mp hc).1⟩

theorem Memory.mem_insertCell {m : Memory} {n : Nat} {v : Byte} {c : Host.Cell} :
    c ∈ m.insertCell n v ↔ c = (n, v) ∨ c ∈ m := by
  induction m with
  | nil => simp [insertCell]
  | cons d m ih =>
    simp only [insertCell]
    split
    · simp
    · simp [ih]; tauto

theorem Memory.pairwise_insertCell {m : Memory} {n : Nat} (v : Byte) (hp : m.Pairwise (fun c d => c.1 < d.1))
    (hn : ∀ c ∈ m, c.1 ≠ n) : (m.insertCell n v).Pairwise (fun c d => c.1 < d.1) := by
  induction m with
  | nil => simp [insertCell]
  | cons d m ih =>
    rw [List.pairwise_cons] at hp
    simp only [List.mem_cons, forall_eq_or_imp] at hn
    simp only [insertCell]
    split
    · rename_i hlt
      refine List.pairwise_cons.2 ⟨?_, List.pairwise_cons.2 hp⟩
      intro c hc
      rcases List.mem_cons.1 hc with rfl | hc
      · exact hlt
      · exact hlt.trans (hp.1 c hc)
    · rename_i hge
      refine List.pairwise_cons.2 ⟨?_, ih hp.2 hn.2⟩
      intro c hc
      rcases mem_insertCell.1 hc with rfl | hc
      · exact lt_of_le_of_ne (not_lt.1 hge) hn.1
      · exact hp.1 c hc

theorem Memory.wf_write {m : Memory} (h : m.wf) (a : Addr) (v : Byte) : (m.write a v).wf := by
  unfold write
  split
  · exact wf_eraseCell h _
  · rename_i hv
    have he := wf_eraseCell h a.toNat
    refine ⟨pairwise_insertCell v he.1 (eraseCell_ne m _), fun c hc => ?_⟩
    rcases mem_insertCell.1 hc with rfl | hc
    · exact ⟨a.isLt, hv⟩
    · exact he.2 c hc

theorem Memory.wf_foldl_write {m : Memory} (h : m.wf) (l : List (Byte × Nat)) :
    (l.foldl (fun m p => m.write (BitVec.ofNat 8 p.2) p.1) m).wf := by
  induction l generalizing m with
  | nil => exact h
  | cons p l ih => exact ih (wf_write h _ _)

theorem Memory.wf_ofProgram {bytes : List Byte} {m : Memory} (h : Memory.ofProgram bytes = some m) : m.wf := by
  unfold ofProgram at h
  split at h
  · cases h; exact wf_foldl_write wf_nil _
  · cases h

end Sys2Proof.Machine
end

