-- ==== Sys2Proof/Laws/Operands.lean ====
section
/-!
SUPPORT. The operand check (spec/40_step_cycle.md R75): what each operand form answers, once.
-/

namespace Sys2Proof.Machine

theorem regidx_of_lt {k : Byte} (h : k.toNat < 8) : regidx k = some ⟨k.toNat, h⟩ := dif_pos h

theorem regidx_of_ge {k : Byte} (h : 8 ≤ k.toNat) : regidx k = none := dif_neg (by omega)

theorem regFault_of_lt {k : Byte} (h : k.toNat < 8) : regFault k = none := if_pos h

theorem regFault_of_ge {k : Byte} (h : 8 ≤ k.toNat) : regFault k = some (badReg k) := if_neg (by omega)

/-- All that operand form A can do. -/
theorem withRegA_eq (a : Byte) (s : State) (body : RegIdx → State) :
    withRegA a s body = if h : a.toNat < 8 then .next (body ⟨a.toNat, h⟩) else .next (raiseFault (badReg a) s) := by
  by_cases h : a.toNat < 8
  · simp [withRegA, regidx_of_lt h, h]
  · simp [withRegA, regidx_of_ge (not_lt.1 h), h]

/-- All that operand form A, B can do. -/
theorem withRegsAB_eq (a b : Byte) (s : State) (body : RegIdx → RegIdx → State) :
    withRegsAB a b s body =
      if ha : a.toNat < 8 then
        if hb : b.toNat < 8 then .next (body ⟨a.toNat, ha⟩ ⟨b.toNat, hb⟩) else .next (raiseFault (badReg b) s)
      else .next (raiseFault (badReg a) s) := by
  by_cases ha : a.toNat < 8
  · by_cases hb : b.toNat < 8
    · simp [withRegsAB, regidx_of_lt ha, regidx_of_lt hb, ha, hb]
    · simp [withRegsAB, regidx_of_lt ha, regidx_of_ge (not_lt.1 hb), ha, hb]
  · simp [withRegsAB, regidx_of_ge (not_lt.1 ha), ha]

theorem withRegA_of_lt {a : Byte} (h : a.toNat < 8) (s : State) (body : RegIdx → State) :
    withRegA a s body = .next (body ⟨a.toNat, h⟩) := by simp [withRegA_eq, h]

theorem withRegA_of_ge {a : Byte} (h : 8 ≤ a.toNat) (s : State) (body : RegIdx → State) :
    withRegA a s body = .next (raiseFault (badReg a) s) := by simp [withRegA_eq, show ¬ a.toNat < 8 by omega]

theorem withRegsAB_of_lt {a b : Byte} (ha : a.toNat < 8) (hb : b.toNat < 8) (s : State)
    (body : RegIdx → RegIdx → State) :
    withRegsAB a b s body = .next (body ⟨a.toNat, ha⟩ ⟨b.toNat, hb⟩) := by simp [withRegsAB_eq, ha, hb]

/-- The operand check passes exactly on well-formed instructions (spec/30_encoding.md R58). -/
theorem operandFault_eq_none_iff (i : Instr) : operandFault i = none ↔ i.wellFormed = true := by
  cases i <;> simp [operandFault, Instr.wellFormed, validReg, regFault, Option.or_eq_none_iff]

/-- The operand check of R75 says beforehand what a meaning finds: on a bad operand it raises that fault and does nothing
else. -/
theorem exec_of_operandFault {i : Instr} {f : FaultValue} (s : State) (h : operandFault i = some f) :
    exec i s = .next (raiseFault f s) := by
  cases i <;> simp only [operandFault, regFault, reduceCtorEq] at h
  all_goals
    simp only [exec, execPush, execPop, execPrn, execCall, execJmp, execJeq, execJne, execLdi, execAdd, execMul,
      execCmp, withRegA_eq, withRegsAB_eq]
    split_ifs at h ⊢ <;> simp_all

end Sys2Proof.Machine
end

