-- ==== Sys2Proof/Laws/PerInstr.lean ====
section
/-!
SUPPORT. A statement for every instruction as syntax: its encoding begins with its row's opcode byte and has its row's
length (spec/30_encoding.md R50, R51, R55).
-/

namespace Sys2Proof.Laws.EncodeShape

/-- The encoding starts with the row's opcode byte, which the map gives back its kind, and is as long as the row's
format. -/
def Statement (i : Instr) : Prop :=
  (encode i).head? = some i.kind.opcode ∧ lookupOpcode i.kind.opcode = some i.kind ∧
    (encode i).length = i.kind.format.length

theorem hlt : Statement .hlt := ⟨rfl, rfl, rfl⟩
theorem ret : Statement .ret := ⟨rfl, rfl, rfl⟩
theorem push (a : Byte) : Statement (.push a) := ⟨rfl, rfl, rfl⟩
theorem pop (a : Byte) : Statement (.pop a) := ⟨rfl, rfl, rfl⟩
theorem prn (a : Byte) : Statement (.prn a) := ⟨rfl, rfl, rfl⟩
theorem call (a : Byte) : Statement (.call a) := ⟨rfl, rfl, rfl⟩
theorem jmp (a : Byte) : Statement (.jmp a) := ⟨rfl, rfl, rfl⟩
theorem jeq (a : Byte) : Statement (.jeq a) := ⟨rfl, rfl, rfl⟩
theorem jne (a : Byte) : Statement (.jne a) := ⟨rfl, rfl, rfl⟩
theorem ldi (a imm : Byte) : Statement (.ldi a imm) := ⟨rfl, rfl, rfl⟩
theorem add (a b : Byte) : Statement (.add a b) := ⟨rfl, rfl, rfl⟩
theorem mul (a b : Byte) : Statement (.mul a b) := ⟨rfl, rfl, rfl⟩
theorem cmp (a b : Byte) : Statement (.cmp a b) := ⟨rfl, rfl, rfl⟩

end Sys2Proof.Laws.EncodeShape
end

