-- ==== Sys2Proof/Laws/Step.lean ====
section
/-!
SUPPORT. Fetch and step: what they can do, once, for later proofs to cite instead of unfolding.
-/

namespace Sys2Proof.Machine

/-- Fetch below the limit gives the three cells from `pc` upward (spec/40_step_cycle.md R72). -/
theorem fetch_of_le {s : State} (h : s.pc.toNat ≤ 253) :
    fetch s = .ok { op := s.mem.read (s.fetchAddr 0), a := s.mem.read (s.fetchAddr 1), b := s.mem.read (s.fetchAddr 2) } :=
  if_neg (by simp [Config.maxFetchPc, Config.memCells, Config.fetchBytes]; omega)

/-- Fetch past the limit faults (R71). -/
theorem fetch_of_gt {s : State} (h : 253 < s.pc.toNat) : fetch s = .error (.outOfBounds .mem 256) :=
  if_pos (by simpa [Config.maxFetchPc, Config.memCells, Config.fetchBytes] using h)

/-- Zero extension keeps the number (spec/00_scope.md R8). -/
theorem zext9_toNat (v : Byte) : (zext9 v).toNat = v.toNat := by
  have := v.isLt
  simp only [zext9, BitVec.toNat_setWidth]
  omega

/-- Below the fetch limit the additions to `pc` are exact (spec/10_state.md R16). -/
theorem pc_add_toNat {p : Pc} (h : p.toNat ≤ 253) {n : Nat} (hn : n ≤ 3) :
    (p + BitVec.ofNat 9 n).toNat = p.toNat + n := by
  simp only [BitVec.toNat_add, BitVec.toNat_ofNat]
  omega

/-- The cell a fetch reads is `pc + k` as a number. -/
theorem read_fetchAddr (s : State) (k : Pc) :
    s.mem.read (s.fetchAddr k) = s.cell (s.pc.toNat + k.toNat) := by
  have : s.fetchAddr k = BitVec.ofNat 8 (s.pc.toNat + k.toNat) := by
    apply BitVec.eq_of_toNat_eq
    simp only [State.fetchAddr, low8, BitVec.toNat_setWidth, BitVec.toNat_add, BitVec.toNat_ofNat]
    omega
  rw [this, State.cell]

/-- Fetch and decode look at `pc` and memory alone. -/
theorem fetchDecode_congr {s t : State} (hpc : t.pc = s.pc) (hm : t.mem = s.mem) : fetchDecode t = fetchDecode s := by
  simp [fetchDecode, fetch, State.fetchAddr, hpc, hm]

/-- The first fault depends on `pc` and memory alone. -/
theorem firstFault_congr {s t : State} (hpc : t.pc = s.pc) (hm : t.mem = s.mem) : firstFault t = firstFault s := by
  simp [firstFault, fetchDecode_congr hpc hm]

theorem fetchDecode_of_le {s : State} (h : s.pc.toNat ≤ 253) :
    fetchDecode s =
      match decodeTriple (s.mem.read (s.fetchAddr 0)) (s.mem.read (s.fetchAddr 1)) (s.mem.read (s.fetchAddr 2)) with
      | .error e => .error (decodeFault s.pc e)
      | .ok i => .ok i := by
  have hf := fetch_of_le h
  unfold fetchDecode
  split
  · simp_all
  · cases hf.symm.trans ‹_›; rfl

theorem fetchDecode_of_gt {s : State} (h : 253 < s.pc.toNat) : fetchDecode s = .error (.outOfBounds .mem 256) := by
  simp only [fetchDecode, fetch_of_gt h]

/-- An instruction is decoded only below the fetch limit. -/
theorem pc_le_of_fetchDecode {s : State} {i : Instr} (h : fetchDecode s = .ok i) : s.pc.toNat ≤ 253 := by
  by_contra hc
  rw [fetchDecode_of_gt (by omega)] at h
  cases h

/-- A triple that stands at `pc` and decodes is what fetch and decode give. -/
theorem fetchDecode_of_shows {s : State} {op a b : Byte} (h : s.Shows op a b) :
    fetchDecode s =
      match decodeTriple op a b with
      | .error e => .error (decodeFault s.pc e)
      | .ok i => .ok i := by
  have hp := h.pc_le
  rw [fetchDecode_of_le hp, read_fetchAddr s 0, read_fetchAddr s 1, read_fetchAddr s 2]
  have h0 : s.cell (s.pc.toNat + BitVec.toNat (0 : Pc)) = op := h.op_eq
  have h1 : s.cell (s.pc.toNat + BitVec.toNat (1 : Pc)) = a := h.a_eq
  have h2 : s.cell (s.pc.toNat + BitVec.toNat (2 : Pc)) = b := h.b_eq
  rw [h0, h1, h2]

@[simp] theorem stopReason_eq_none {s : State} : stopReason s = none ↔ s.run = .running := by
  unfold stopReason; split <;> simp_all

theorem step_of_running {s : State} (h : s.run = .running) :
    step s = match fetchDecode s with
      | .error f => .next (raiseFault f s)
      | .ok i => exec i s := by
  have hn := stopReason_eq_none.2 h
  unfold step
  split
  · simp_all
  · rfl

/-- A step that answers a next state came from `Running`, and either raised the fault of fetch or decode, or ran the
decoded instruction. -/
theorem step_cases {s t : State} (h : step s = .next t) :
    s.run = .running ∧
      ((∃ f, fetchDecode s = .error f ∧ t = raiseFault f s) ∨ (∃ i, fetchDecode s = .ok i ∧ exec i s = .next t)) := by
  unfold step at h
  split at h
  · cases h
  · rename_i hr
    refine ⟨stopReason_eq_none.1 hr, ?_⟩
    split at h
    · rename_i f hf; cases h; exact .inl ⟨f, hf, rfl⟩
    · rename_i i hi; exact .inr ⟨i, hi, h⟩

end Sys2Proof.Machine
end

