-- ==== Sys2Proof/Tests/Slice0.lean ====
section
/-!
SUPPORT. The model's own tests. Expected values come from spec/: the encodings of 30_encoding.md R55, the vectors of
95_test_vectors.md (named in each comment), the examples of the instruction rules. After them, for every obligation with
hypotheses, a concrete state and operands that meet all of them together, at boundary values.
-/

open Sys2Proof Sys2Proof.Machine

namespace Sys2Proof.Tests

/-- The reset state with another `pc` and these cells in memory. -/
def at_ (pc : Pc) (cells : List (Addr × Byte)) : State :=
  { State.reset with pc := pc, mem := cells.foldl (fun m c => m.write c.1 c.2) [] }

/-- With registers set. -/
def withRegs (s : State) (rs : List (RegIdx × Byte)) : State := rs.foldl (fun s r => s.setReg r.1 r.2) s

/-- What a next state holds, none if the outcome is a stop. -/
def after {α : Type} (o : Result) (f : State → α) : Option α :=
  match o with
  | .next t => some (f t)
  | .fault _ => none
  | .refused _ => none

/-- The flags as the vectors write them. -/
def elg (s : State) : Bool × Bool × Bool := (s.flags.e, s.flags.l, s.flags.g)

/-! ### WellFormed: each check refuses an ill-formed term (R58) -/

theorem test_wf_push : (Instr.push 8).wellFormed = false ∧ (Instr.push 7).wellFormed = true := by decide
theorem test_wf_pop : (Instr.pop 8).wellFormed = false := by decide
theorem test_wf_prn : (Instr.prn 255).wellFormed = false := by decide
theorem test_wf_call : (Instr.call 8).wellFormed = false := by decide
theorem test_wf_jmp : (Instr.jmp 8).wellFormed = false := by decide
theorem test_wf_jeq : (Instr.jeq 8).wellFormed = false := by decide
theorem test_wf_jne : (Instr.jne 200).wellFormed = false := by decide
theorem test_wf_ldi : (Instr.ldi 8 1).wellFormed = false ∧ (Instr.ldi 7 255).wellFormed = true := by decide
theorem test_wf_add : (Instr.add 8 0).wellFormed = false ∧ (Instr.add 1 8).wellFormed = false := by decide
theorem test_wf_mul : (Instr.mul 8 0).wellFormed = false ∧ (Instr.mul 0 9).wellFormed = false := by decide
theorem test_wf_cmp : (Instr.cmp 8 0).wellFormed = false ∧ (Instr.cmp 0 8).wellFormed = false := by decide

/-! ### Decoding: words written out bit by bit from R55; byte 0 is the low byte of the word -/

theorem test_decode_hlt : decodeTableWord 8 0b00000001 = some .hlt := by decide
theorem test_decode_ret : decodeTableWord 8 0b00010001 = some .ret := by decide
theorem test_decode_push : decodeTableWord 16 0b00000011_01000101 = some (.push 3) := by decide
theorem test_decode_pop : decodeTableWord 16 0b00000100_01000110 = some (.pop 4) := by decide
theorem test_decode_prn : decodeTableWord 16 0b00000111_01000111 = some (.prn 7) := by decide
theorem test_decode_call : decodeTableWord 16 0b00000001_01010000 = some (.call 1) := by decide
theorem test_decode_jmp : decodeTableWord 16 0b00000010_01010100 = some (.jmp 2) := by decide
theorem test_decode_jeq : decodeTableWord 16 0b00000010_01010101 = some (.jeq 2) := by decide
theorem test_decode_jne : decodeTableWord 16 0b00000011_01010110 = some (.jne 3) := by decide
theorem test_decode_ldi : decodeTableWord 24 0b00001000_00000000_10000010 = some (.ldi 0 8) := by decide
theorem test_decode_add : decodeTableWord 24 0b00000001_00000101_10100000 = some (.add 5 1) := by decide
theorem test_decode_mul : decodeTableWord 24 0b00000001_00000101_10100010 = some (.mul 5 1) := by decide
theorem test_decode_cmp : decodeTableWord 24 0b00000001_00000101_10100111 = some (.cmp 5 1) := by decide
/-- 0x40 fits the bit layout of R56 but is not in the table (V-ILL-3); 0x00 and 0xA1 neither (V-ILL-1, V-ILL-5). -/
theorem test_decode_illegal : decodeTableWord 8 0x40 = none ∧ decodeTableWord 8 0 = none ∧ decodeTableWord 24 0x0100A1 = none := by
  decide
/-- A bit above nbits is 0. -/
theorem test_decode_bits_above : decodeTableWord 16 0x080082 = some (.ldi 0 0) := by decide
theorem test_decode_truncated : decodeBytes [0x01, 0x00] = .error .truncated := by decide
theorem test_encode_ldi : encode (.ldi 0 8) = [0x82, 0x00, 0x08] := by decide
/-- R74: what the decoder hands on for ADD. -/
theorem test_decode_record : decodeRecord 0xA0 1 2 =
    .ok { kind := .add, format := .rr, aNamesReg := true, bNamesReg := true, aluOp := some .add, a := 1, b := 2 } := by
  decide

/-! ### Single steps from spec/95_test_vectors.md section 2 -/

/-- V-LDI-3: at the last fetch address, leaving `pc` = 256. -/
theorem test_ldi_at_253 : after (step (at_ 253 [(253, 0x82), (254, 3), (255, 0x80)])) (fun t => (t.pc, t.reg 3)) =
    some (256, 128) := by decide
/-- V-LDI-4. -/
theorem test_ldi_bad : after (step (at_ 4 [(4, 0x82), (5, 8), (6, 1)])) (fun t => (t.run, t.pc)) =
    some (.faulted (.outOfBounds .reg 8), 4) := by decide
/-- V-ADD-1. -/
theorem test_add_wraps : after (step (withRegs (at_ 0 [(0, 0xA0), (1, 0), (2, 1)]) [(0, 200), (1, 100)]))
    (fun t => (t.reg 0, t.reg 1, t.pc)) = some (44, 100, 3) := by decide
/-- V-ADD-8: operand A is reported before operand B. -/
theorem test_add_both_bad : after (step (at_ 0 [(0, 0xA0), (1, 9), (2, 12)])) (fun t => t.run) =
    some (.faulted (.outOfBounds .reg 9)) := by decide
/-- V-MUL-3. -/
theorem test_mul_low_byte : after (step (withRegs (at_ 0 [(0, 0xA2), (1, 0), (2, 1)]) [(0, 255), (1, 255)]))
    (fun t => (t.reg 0, t.pc)) = some (1, 3) := by decide
/-- V-MUL-7: the same register twice squares. -/
theorem test_mul_squares : after (step (withRegs (at_ 0 [(0, 0xA2), (1, 3), (2, 3)]) [(3, 17)])) (fun t => t.reg 3) =
    some 33 := by decide
/-- V-CMP-8: E is cleared. -/
theorem test_cmp_clears : after (step { withRegs (at_ 0 [(0, 0xA7), (1, 0), (2, 1)]) [(0, 1), (1, 2)] with
    flags := ⟨true, false, false⟩ }) elg = some (false, true, false) := by decide
/-- V-CMP-6: unsigned. -/
theorem test_cmp_unsigned : after (step (withRegs (at_ 0 [(0, 0xA7), (1, 0), (2, 1)]) [(0, 128), (1, 127)])) elg =
    some (false, false, true) := by decide
/-- The sticky variant of D7, V-CMP-8: it would be 110. Not this hardware's setting. -/
theorem test_cmp_sticky_variant : cmpFlags true ⟨true, false, false⟩ (aluCompare 1 2) = ⟨true, true, false⟩ ∧
    Config.cmpSticky = false := by decide
/-- V-JMP-2: a jump to 255 succeeds. -/
theorem test_jmp_255 : after (step (withRegs (at_ 12 [(12, 0x54), (13, 0)]) [(0, 255)])) (fun t => (t.pc, t.run)) =
    some (255, .running) := by decide
/-- V-JEQ-1. -/
theorem test_jeq_taken : after (step { withRegs (at_ 16 [(16, 0x55), (17, 2)]) [(2, 32)] with
    flags := ⟨true, false, false⟩ }) (fun t => t.pc) = some 32 := by decide
/-- V-JEQ-4: untaken, still checked. -/
theorem test_jeq_bad_untaken : after (step { at_ 16 [(16, 0x55), (17, 8)] with flags := ⟨false, false, true⟩ })
    (fun t => (t.run, t.pc)) = some (.faulted (.outOfBounds .reg 8), 16) := by decide
/-- V-JNE-3: no CMP yet, jumps. -/
theorem test_jne_taken : after (step (withRegs (at_ 18 [(18, 0x56), (19, 3)]) [(3, 9)])) (fun t => t.pc) = some 9 := by
  decide
/-- V-JNE-2. -/
theorem test_jne_untaken : after (step { withRegs (at_ 18 [(18, 0x56), (19, 3)]) [(3, 9)] with
    flags := ⟨true, false, false⟩ }) (fun t => t.pc) = some 20 := by decide
/-- V-PUSH-3: `sp` wraps upward. -/
theorem test_push_wraps : after (step { withRegs (at_ 40 [(40, 0x45), (41, 1)]) [(1, 119)] with sp := 255 })
    (fun t => (t.sp, t.mem.read 0, t.pc)) = some (0, 0x77, 42) := by decide
/-- V-PUSH-4: it overwrites its own opcode cell and still completes. -/
theorem test_push_own_opcode : after (step { withRegs (at_ 32 [(32, 0x45), (33, 1)]) [(1, 238)] with sp := 31 })
    (fun t => (t.sp, t.mem.read 32, t.pc)) = some (32, 0xEE, 34) := by decide
/-- V-POP-1. -/
theorem test_pop : after (step { at_ 34 [(17, 0x2A), (34, 0x46), (35, 4)] with sp := 17 })
    (fun t => (t.reg 4, t.sp, t.pc, t.mem.read 17)) = some (42, 16, 36, 0x2A) := by decide
/-- V-POP-2: from `sp` = 0 it reads its own opcode. -/
theorem test_pop_wraps : after (step (at_ 0 [(0, 0x46)])) (fun t => (t.reg 0, t.sp)) = some (70, 255) := by decide
/-- V-CALL-1. -/
theorem test_call : after (step (withRegs (at_ 6 [(6, 0x50), (7, 1)]) [(1, 48)]))
    (fun t => (t.pc, t.sp, t.mem.read 255)) = some (48, 255, 8) := by decide
/-- V-CALL-3: at 253 the saved byte is 255. -/
theorem test_call_at_253 : after (step { withRegs (at_ 253 [(253, 0x50)]) [(0, 10)] with sp := 2 })
    (fun t => (t.pc, t.sp, t.mem.read 1)) = some (10, 1, 0xFF) := by decide
/-- V-RET-1. -/
theorem test_ret : after (step { at_ 51 [(51, 0x11), (255, 8)] with sp := 255 }) (fun t => (t.pc, t.sp)) =
    some (8, 0) := by decide
/-- V-RET-4: past the fetch limit it does not return. -/
theorem test_ret_at_254 : after (step { at_ 254 [(100, 7), (254, 0x11)] with sp := 100 }) (fun t => (t.run, t.pc, t.sp)) =
    some (.faulted (.outOfBounds .mem 256), 254, 100) := by decide
/-- V-HLT-3. -/
theorem test_hlt_at_253 : after (step (at_ 253 [(253, 1)])) (fun t => (t.run, t.pc)) = some (.halted, 253) := by decide
/-- V-HLT-4. -/
theorem test_hlt_at_254 : after (step (at_ 254 [(254, 1)])) (fun t => t.run) = some (.faulted (.outOfBounds .mem 256)) := by
  decide
/-- V-PRN-3. -/
theorem test_prn : after (step (withRegs (at_ 3 [(3, 0x47), (4, 1)]) [(1, 255)])) (fun t => (t.out, t.pc)) =
    some ([255], 5) := by decide
/-- V-PRN-4: nothing is emitted on a fault. -/
theorem test_prn_bad : after (step (at_ 3 [(3, 0x47), (4, 8)])) (fun t => (t.out, t.run)) =
    some ([], .faulted (.outOfBounds .reg 8)) := by decide
/-- P7a: empty memory is illegal code, so the step from `State.reset` faults. -/
theorem test_reset_step : after (step State.reset) (fun t => (t.run, t.pc)) = some (.faulted (.invalidOpcode 0 0), 0) := by
  decide
/-- An instruction placed by the host runs as the first step (`LDI R0 8`, R130's example). -/
theorem test_withFetchWord : after (step (State.reset.withFetchWord 24 0x080082)) (fun t => (t.reg 0, t.pc)) =
    some (8, 3) := by decide

/-! ### Memory form -/

theorem test_write_keeps_form : Memory.wf (Memory.write (Memory.write (Memory.write [] 200 7) 3 9) 200 0) ∧
    Memory.write (Memory.write (Memory.write [] 200 7) 3 9) 200 0 = [(3, 9)] := by decide
theorem test_wf_refuses : ¬ Memory.wf [(3, 1), (3, 2)] ∧ ¬ Memory.wf [(4, 1), (3, 2)] ∧ ¬ Memory.wf [(3, 0)] ∧
    ¬ Memory.wf [(256, 1)] := by decide

/-! ### Ports -/

/-- R156, PUSH: three fetch reads, then the write. -/
theorem test_push_transactions : stepTransactions { withRegs (at_ 40 [(40, 0x45), (41, 1)]) [(1, 119)] with sp := 255 } =
    [.read 40 0x45, .read 41 1, .read 42 0, .write 0 119] := by decide
/-- R151: the code of the fetch fault. -/
theorem test_status_fetch_fault : after (step (at_ 256 [])) State.statusPort =
    some { runState := 2, faultKind := 1, faultSpace := some 0, faultInfo := some 0x100, pcOut := 256 } := by decide

/-! ### Witnesses: every obligation's hypotheses can be met, at the boundary values -/

/-- LDI at the last fetch address. -/
def sLdi : State := at_ 253 [(253, 0x82), (254, 7), (255, 0xFF)]
/-- The bytes 0xA0, 7, 8 at 0: ADD with a bad operand B. -/
def sAddBadB : State := at_ 0 [(0, 0xA0), (1, 7), (2, 8)]
/-- PUSH R8 at 0: a bad operand A. -/
def sPushBad : State := at_ 0 [(0, 0x45), (1, 8)]
/-- CMP R0 R0 at 0. -/
def sCmp : State := at_ 0 [(0, 0xA7)]
/-- PUSH R0 at 0. -/
def sPush : State := at_ 0 [(0, 0x45)]
/-- HLT at 253. -/
def sHlt : State := at_ 253 [(253, 1)]

theorem sLdi_shows : sLdi.Shows 0x82 7 0xFF := ⟨by decide, by decide, by decide, by decide⟩
theorem sAddBadB_shows : sAddBadB.Shows 0xA0 7 8 := ⟨by decide, by decide, by decide, by decide⟩
theorem sPushBad_shows : sPushBad.Shows 0x45 8 0 := ⟨by decide, by decide, by decide, by decide⟩
theorem sHlt_shows : sHlt.Shows 0x01 0 0 := ⟨by decide, by decide, by decide, by decide⟩

theorem witness_DecodeInvertsEncode : decodeTriple 0x82 7 0xFF = .ok (.ldi 7 0xFF) := by decide

theorem witness_OpcodeMapRows : decodeTriple 0xA7 0 0 = .ok (.cmp 0 0) := by decide

theorem witness_OpcodesOutsideTheTableAreIllegal :
    (0x00 : Byte) ∉ tableOpcodes ∧ (0xFF : Byte) ∉ tableOpcodes ∧
    ∃ s : State, s.run = .running ∧ s.Shows 0xFF 1 1 :=
  ⟨by decide, by decide, at_ 253 [(253, 0xFF), (254, 1), (255, 1)], rfl, by decide, by decide, by decide, by decide⟩

theorem witness_FetchFaultClause : ∃ s t : State, s.run = .running ∧ s.pc.toNat = 254 ∧ t.run = .running ∧ t.pc.toNat = 256 :=
  ⟨at_ 254 [], at_ 256 [], rfl, rfl, rfl, rfl⟩

theorem witness_UnusedOperandBytesAreIgnored : (0x11 : Byte) ∈ ([0x01, 0x11] : List Byte) ∧ (0x45 : Byte) ∈ formatROpcodes ∧
    (0x56 : Byte) ∈ formatROpcodes := by decide

theorem witness_StepRunsTheDecodedInstruction :
    sLdi.run = .running ∧ sLdi.Shows 0x82 7 0xFF ∧ decodeTriple 0x82 7 0xFF = .ok (.ldi 7 0xFF) :=
  ⟨rfl, sLdi_shows, by decide⟩

theorem witness_FetchFaultsExactlyPastTheLimit : (at_ 254 []).run = .running ∧ 253 < (at_ 254 []).pc.toNat ∧
    (at_ 253 []).pc.toNat ≤ 253 := by decide

theorem witness_StepIsTakenExactlyWhenRunningInFourPhases :
    (fetch (at_ 254 []) = .error (.outOfBounds .mem 256)) ∧
    (fetch (at_ 0 []) = .ok ⟨0, 0, 0⟩ ∧ decodeTriple 0 0 0 = .error (.invalidOpcode 0)) ∧
    (fetch sAddBadB = .ok ⟨0xA0, 7, 8⟩ ∧ decodeTriple 0xA0 7 8 = .ok (.add 7 8) ∧
      operandFault (.add 7 8) = some (.outOfBounds .reg 8)) ∧
    (fetch sLdi = .ok ⟨0x82, 7, 0xFF⟩ ∧ decodeTriple 0x82 7 0xFF = .ok (.ldi 7 0xFF) ∧ operandFault (.ldi 7 0xFF) = none) ∧
    (at_ 254 []).run = .running ∧ (at_ 0 []).run = .running ∧ sAddBadB.run = .running ∧ sLdi.run = .running := by
  refine ⟨rfl, ⟨rfl, rfl⟩, ⟨rfl, rfl, rfl⟩, ⟨rfl, rfl, rfl⟩, rfl, rfl, rfl, rfl⟩

/-- Also the operand hypotheses of the trap clauses of JMP, LDI, ADD and MUL. -/
theorem witness_BadRegisterIndexFaults : 8 ≤ (8 : Byte).toNat ∧ 8 ≤ (255 : Byte).toNat ∧ (7 : Byte).toNat < 8 := by decide

theorem witness_FaultPriority :
    (∃ s : State, s.run = .running ∧ s.Shows 0x00 0 0) ∧
    (sPushBad.run = .running ∧ sPushBad.Shows 0x45 8 0 ∧ (0x45 : Byte) ∈ formatROpcodes ∧ 8 ≤ (8 : Byte).toNat) ∧
    (sAddBadB.run = .running ∧ sAddBadB.Shows 0xA0 7 8 ∧ (0xA0 : Byte) ∈ formatRROpcodes ∧ (7 : Byte).toNat < 8 ∧
      8 ≤ (8 : Byte).toNat) ∧
    (sHlt.run = .running ∧ sHlt.Shows 0x01 0 0) ∧
    (sLdi.run = .running ∧ sLdi.Shows 0x82 7 0xFF ∧ (7 : Byte).toNat < 8) :=
  ⟨⟨at_ 0 [], rfl, by decide, by decide, by decide, by decide⟩, ⟨rfl, sPushBad_shows, by decide, by decide⟩,
    ⟨rfl, sAddBadB_shows, by decide, by decide, by decide⟩, ⟨rfl, sHlt_shows⟩, ⟨rfl, sLdi_shows, by decide⟩⟩

/-- One step that ends in each of the three faults; for FaultChangesOnlyTheRunState and FaultRecordShapes. -/
theorem witness_FaultChangesOnlyTheRunState_FaultRecordShapes :
    (∃ t, step (at_ 254 []) = .next t ∧ t.run = .faulted (.outOfBounds .mem 256)) ∧
    (∃ t, step (at_ 0 []) = .next t ∧ t.run = .faulted (.invalidOpcode 0 0)) ∧
    (∃ t, step sAddBadB = .next t ∧ t.run = .faulted (.outOfBounds .reg 8)) :=
  ⟨⟨_, rfl, rfl⟩, ⟨_, rfl, rfl⟩, ⟨_, rfl, rfl⟩⟩

theorem witness_FaultedIsTerminalUntilReset :
    (raiseFault (.invalidOpcode 0 0) State.reset).run = .faulted (.invalidOpcode 0 0) ∧
    (raiseFault (.invalidOpcode 0 0) sLdi).mem = sLdi.mem := by decide

theorem witness_RunStateTransitions :
    (∃ t, step sHlt = .next t ∧ t.run = .halted) ∧ (∃ t, step sLdi = .next t ∧ t.run = .running) ∧
    (∃ t, step sPushBad = .next t ∧ t.run = .faulted (.outOfBounds .reg 8)) :=
  ⟨⟨_, rfl, rfl⟩, ⟨_, rfl, rfl⟩, ⟨_, rfl, rfl⟩⟩

theorem witness_LoaderImage : (List.replicate 256 (1 : Byte)).length ≤ 256 ∧ 255 < (List.replicate 256 (1 : Byte)).length ∧
    256 < (List.replicate 257 (1 : Byte)).length ∧ ([1] : List Byte).length ≤ 1 ∧ 1 < 256 := by
  simp only [List.length_replicate, List.length_singleton]
  decide

theorem witness_LaunchMeetsTheInvariant : Memory.wf [] ∧ Memory.wf [(0, 1), (255, 9)] := by decide

theorem sLdi_inv : sLdi.Inv := ⟨by decide, by decide, by decide, trivial⟩
theorem sPushBad_inv : sPushBad.Inv := ⟨by decide, by decide, by decide, trivial⟩

theorem witness_EveryStepKeepsTheInvariant :
    (sLdi.Inv ∧ ∃ t, step sLdi = .next t) ∧ (sPushBad.Inv ∧ ∃ t, step sPushBad = .next t) :=
  ⟨⟨sLdi_inv, _, rfl⟩, sPushBad_inv, _, rfl⟩

theorem witness_EveryRunKeepsTheInvariant :
    sPush.mem.wf ∧ (∃ t : State, core.run 1 (launch sPush.mem) = .next t) ∧ ∃ t : State, core.run 0 (launch []) = .next t :=
  ⟨by decide, ⟨_, rfl⟩, _, rfl⟩

/-- A launch that executes one CMP, and one that has executed nothing. -/
theorem witness_FlagsRecordWhetherACmpHasExecuted :
    (∃ t, Trace (launch sCmp.mem) [.cmp 0 0] t ∧ 0 < countKind .cmp [.cmp 0 0]) ∧
    (Trace (launch []) [] (launch []) ∧ countKind .cmp [] = 0) :=
  ⟨⟨_, .more ⟨rfl, rfl, rfl, rfl⟩ (.done _), by decide⟩, .done _, rfl⟩

/-- A PUSH followed by a POP: balanced. -/
theorem witness_StackPointerCountsTheStackInstructions :
    ∃ s t : State, Trace s [.push 0, .pop 1] t ∧ countKind .push [.push 0, .pop 1] = countKind .pop [.push 0, .pop 1] ∧
      countKind .call [.push 0, .pop 1] = countKind .ret [.push 0, .pop 1] :=
  ⟨at_ 0 [(0, 0x45), (2, 0x46), (3, 1)], _, .more ⟨rfl, rfl, rfl, rfl⟩ (.more ⟨rfl, rfl, rfl, rfl⟩ (.done _)), by decide,
    by decide⟩

theorem witness_OutputHistoryGrowsOncePerPrn : ∃ s t : State, Trace s [.prn 7] t :=
  ⟨at_ 0 [(0, 0x47), (1, 7)], _, .more ⟨rfl, rfl, rfl, rfl⟩ (.done _)⟩

theorem witness_FlagsHaveOneWriterAndLGNoReader :
    (∃ t, exec (.cmp 0 0) sCmp = .next t ∧ t.flags ≠ sCmp.flags) ∧
    ((∀ a, Instr.push 0 ≠ .jeq a) ∧ (∀ a, Instr.push 0 ≠ .jne a) ∧ ∃ t, exec (.push 0) sPush = .next t) ∧
    (∃ s t : State, SameButLG s t ∧ s ≠ t ∧ ∃ s', step s = .next s') :=
  ⟨⟨_, rfl, by decide⟩, ⟨by decide, by decide, _, rfl⟩,
    ⟨sPush, { sPush with flags := ⟨false, true, true⟩ }, rfl, by decide, _, rfl⟩⟩

theorem witness_RegistersAreWrittenOnlyAsOperandA : ∃ t, exec (.ldi 7 1) sLdi = .next t ∧ t.reg 7 ≠ sLdi.reg 7 :=
  ⟨_, rfl, by decide⟩

/-- A running state that shows each kind of instruction R31 speaks of, and a bad operand. -/
theorem witness_MemoryAccessesOfAStep :
    (∃ s : State, s.run = .running ∧ s.Shows 0x45 7 0) ∧ (∃ s : State, s.run = .running ∧ s.Shows 0x46 7 0) ∧
    (∃ s : State, s.run = .running ∧ s.Shows 0x50 7 0) ∧ (∃ s : State, s.run = .running ∧ s.Shows 0x11 0 0) ∧
    (sPushBad.run = .running ∧ sPushBad.Shows 0x45 8 0 ∧ operandFault (.push 8) ≠ none) ∧
    (sLdi.run = .running ∧ sLdi.Shows 0x82 7 0xFF) ∧
    (∃ t, exec (.push 0) (withRegs sPush [(0, 5)]) = .next t ∧ t.mem ≠ (withRegs sPush [(0, 5)]).mem) :=
  ⟨⟨at_ 0 [(0, 0x45), (1, 7)], rfl, by decide, by decide, by decide, by decide⟩,
    ⟨at_ 0 [(0, 0x46), (1, 7)], rfl, by decide, by decide, by decide, by decide⟩,
    ⟨at_ 0 [(0, 0x50), (1, 7)], rfl, by decide, by decide, by decide, by decide⟩,
    ⟨at_ 0 [(0, 0x11)], rfl, by decide, by decide, by decide, by decide⟩,
    ⟨rfl, sPushBad_shows, by decide⟩, ⟨rfl, sLdi_shows⟩, ⟨_, rfl, by decide⟩⟩

theorem witness_StepEffectEqualsItsPortActivity : (∃ t, step sPush = .next t) ∧ sPush.halt.run ≠ .running :=
  ⟨⟨_, rfl⟩, by decide⟩

/-- A three-byte instruction at 253, a conditional jump with `E` set and clear, a CALL, a bad operand, an HLT and a RET. -/
theorem witness_NextPcTable :
    (sLdi.run = .running ∧ sLdi.Shows 0x82 7 0xFF ∧ ∃ t, step sLdi = .next t ∧ t.pc = 256) ∧
    (∃ s t : State, s.run = .running ∧ s.Shows 0x55 7 0 ∧ s.flags.e = true ∧ step s = .next t) ∧
    (∃ s t : State, s.run = .running ∧ s.Shows 0x56 7 0 ∧ s.flags.e = false ∧ step s = .next t) ∧
    (∃ s t : State, s.run = .running ∧ s.Shows 0x50 7 0 ∧ step s = .next t) ∧
    (∃ t, sPushBad.run = .running ∧ sPushBad.Shows 0x45 8 0 ∧ step sPushBad = .next t) ∧
    (∃ t, sHlt.run = .running ∧ sHlt.Shows 0x01 0 0 ∧ step sHlt = .next t) ∧
    (∃ s t : State, s.run = .running ∧ s.Shows 0x11 0 0 ∧ step s = .next t) ∧
    (∃ t, sPush.run = .running ∧ sPush.Shows 0x45 0 0 ∧ step sPush = .next t) :=
  ⟨⟨rfl, sLdi_shows, _, rfl, rfl⟩,
    ⟨{ at_ 0 [(0, 0x55), (1, 7)] with flags := ⟨true, false, false⟩ }, _, rfl,
      ⟨by decide, by decide, by decide, by decide⟩, rfl, rfl⟩,
    ⟨at_ 0 [(0, 0x56), (1, 7)], _, rfl, ⟨by decide, by decide, by decide, by decide⟩, rfl, rfl⟩,
    ⟨at_ 0 [(0, 0x50), (1, 7)], _, rfl, ⟨by decide, by decide, by decide, by decide⟩, rfl⟩,
    ⟨_, rfl, sPushBad_shows, rfl⟩, ⟨_, rfl, sHlt_shows, rfl⟩,
    ⟨at_ 0 [(0, 0x11)], _, rfl, ⟨by decide, by decide, by decide, by decide⟩, rfl⟩,
    ⟨_, rfl, ⟨by decide, by decide, by decide, by decide⟩, rfl⟩⟩

/-- The operand hypothesis of every instruction's result statement: PRN, PUSH, POP, CALL, JMP, JEQ, JNE, LDI (one
register), ADD, MUL, CMP (two), and StackDirections, AluOperations, MixedStackUseOverwrites. -/
theorem witness_register_operands : (0 : Byte).toNat < 8 ∧ (7 : Byte).toNat < 8 := by decide

/-- `E` set and clear, for JEQ and JNE. -/
theorem witness_JeqJumpsIfEqual_JneJumpsIfNotEqual : State.reset.flags.e = false ∧
    { State.reset with flags := ⟨true, false, false⟩ }.flags.e = true ∧ (7 : Byte).toNat < 8 := by decide

theorem witness_CallSavesTheReturnAddressAndJumps : (7 : Byte).toNat < 8 ∧ sLdi.pc.toNat ≤ 253 := by decide

/-- At the last `pc` for which both instructions can be fetched, and with `sp` = 255. -/
theorem witness_PushThenPopRoundTrip :
    ∃ s : State, s.run = .running ∧ s.pc.toNat = 251 ∧ s.cell 251 = 0x45 ∧ s.cell 252 = 7 ∧ s.cell 253 = 0x46 ∧
      s.cell 254 = 0 ∧ s.sp = 255 ∧ s.pushAddr.toNat ≠ 253 ∧ s.pushAddr.toNat ≠ 254 ∧ (7 : Byte).toNat < 8 ∧
      (0 : Byte).toNat < 8 :=
  ⟨{ at_ 251 [(251, 0x45), (252, 7), (253, 0x46)] with sp := 255 }, by decide⟩

theorem witness_CallThenRetRoundTrip : (7 : Byte).toNat < 8 ∧ sLdi.pc.toNat ≤ 253 ∧
    ∃ t u : State, exec (.call 7) sLdi = .next t ∧ u.sp = t.sp ∧ u.mem.read t.sp = t.mem.read t.sp :=
  ⟨by decide, by decide, _, _, rfl, rfl, rfl⟩

theorem witness_CompareThenBranch : ∃ s t u : State, s.reg 0 < s.reg 7 ∧ t.reg 0 = t.reg 7 ∧ u.reg 7 < u.reg 0 :=
  ⟨withRegs State.reset [(7, 255)], State.reset, withRegs State.reset [(0, 255)], by decide, by decide, by decide⟩

theorem witness_NextFetchSeesTheStore :
    (∃ s t : State, exec (.push 7) s = .next t ∧ t.pc.toNat = 253) ∧
    (∃ s t : State, exec (.call 7) s = .next t ∧ t.pc.toNat ≤ 253) ∧ (7 : Byte).toNat < 8 :=
  ⟨⟨at_ 251 [], _, rfl, rfl⟩, ⟨at_ 251 [], _, rfl, by decide⟩, by decide⟩

theorem witness_CanonicalMemoriesThatReadAlikeAreEqual :
    Memory.wf [(0, 1), (255, 2)] ∧ ∀ x : Addr, Memory.read [(0, 1), (255, 2)] x = Memory.read [(0, 1), (255, 2)] x :=
  ⟨by decide, fun _ => rfl⟩

theorem witness_StatusPortCodes : State.reset.run = .running ∧ State.reset.halt.run = .halted ∧
    (raiseFault (.outOfBounds .mem 256) State.reset).run = .faulted (.outOfBounds .mem 256) ∧
    (raiseFault (.outOfBounds .reg 8) State.reset).run = .faulted (.outOfBounds .reg 8) ∧
    (raiseFault (.invalidOpcode 0 3) State.reset).run = .faulted (.invalidOpcode 0 3) := by decide

end Sys2Proof.Tests
end

section
/-!
PROOFS. What an instruction does when it raises no fault, as a relation with one rule per instruction (two for a
conditional jump), and what a step can do in terms of it. Every later proof takes a step apart by `step_eq_next_iff` and
an instruction by cases on `Completes`, and unfolds neither `step` nor `exec`.
-/

namespace Sys2Proof.Machine

/-- Instruction `i` passes its operand check at `s` and leads to `t` (spec/40_step_cycle.md R75, R76). `completes_iff`
ties it to `exec`. -/
inductive Completes : Instr → State → State → Prop where
  | hlt {s} : Completes .hlt s s.halt
  | ret {s} : Completes .ret s ((s.setSp (s.sp + 1)).jump s.stackTop)
  | push {s a} (ha : a.toNat < 8) :
      Completes (.push a) s ((s.storeAtNewSp s.pushAddr (s.reg ⟨a.toNat, ha⟩)).advance 2)
  | pop {s a} (ha : a.toNat < 8) :
      Completes (.pop a) s (((s.setReg ⟨a.toNat, ha⟩ s.stackTop).setSp (s.sp - 1)).advance 2)
  | prn {s a} (ha : a.toNat < 8) : Completes (.prn a) s ((s.emit (s.reg ⟨a.toNat, ha⟩)).advance 2)
  | call {s a} (ha : a.toNat < 8) :
      Completes (.call a) s ((s.storeAtNewSp s.callAddr s.returnAddr).jump (s.reg ⟨a.toNat, ha⟩))
  | jmp {s a} (ha : a.toNat < 8) : Completes (.jmp a) s (s.jump (s.reg ⟨a.toNat, ha⟩))
  | jeqTaken {s a} (ha : a.toNat < 8) (he : s.flags.e = true) :
      Completes (.jeq a) s (s.jump (s.reg ⟨a.toNat, ha⟩))
  | jeqUntaken {s a} (ha : a.toNat < 8) (he : s.flags.e = false) : Completes (.jeq a) s (s.advance 2)
  | jneTaken {s a} (ha : a.toNat < 8) (he : s.flags.e = false) :
      Completes (.jne a) s (s.jump (s.reg ⟨a.toNat, ha⟩))
  | jneUntaken {s a} (ha : a.toNat < 8) (he : s.flags.e = true) : Completes (.jne a) s (s.advance 2)
  | ldi {s a imm} (ha : a.toNat < 8) : Completes (.ldi a imm) s ((s.setReg ⟨a.toNat, ha⟩ imm).advance 3)
  | add {s a b} (ha : a.toNat < 8) (hb : b.toNat < 8) :
      Completes (.add a b) s (s.aluStep .add ⟨a.toNat, ha⟩ ⟨b.toNat, hb⟩)
  | mul {s a b} (ha : a.toNat < 8) (hb : b.toNat < 8) :
      Completes (.mul a b) s (s.aluStep .mul ⟨a.toNat, ha⟩ ⟨b.toNat, hb⟩)
  | cmp {s a b} (ha : a.toNat < 8) (hb : b.toNat < 8) :
      Completes (.cmp a b) s (s.aluStep .cmp ⟨a.toNat, ha⟩ ⟨b.toNat, hb⟩)

/-! ### The operand check and `exec` -/

theorem regFault_eq_none_iff {k : Byte} : regFault k = none ↔ k.toNat < 8 := by
  simp [regFault]

theorem eq_of_withRegA_eq_next {a : Byte} {s t : State} {body : RegIdx → State} (hok : regFault a = none)
    (h : withRegA a s body = .next t) : ∃ ha : a.toNat < 8, t = body ⟨a.toNat, ha⟩ := by
  have ha := regFault_eq_none_iff.1 hok
  rw [withRegA_of_lt ha] at h
  cases h
  exact ⟨ha, rfl⟩

theorem eq_of_withRegsAB_eq_next {a b : Byte} {s t : State} {body : RegIdx → RegIdx → State}
    (hok : (regFault a).or (regFault b) = none) (h : withRegsAB a b s body = .next t) :
    ∃ (ha : a.toNat < 8) (hb : b.toNat < 8), t = body ⟨a.toNat, ha⟩ ⟨b.toNat, hb⟩ := by
  obtain ⟨hoka, hokb⟩ := Option.or_eq_none_iff.1 hok
  have ha := regFault_eq_none_iff.1 hoka
  have hb := regFault_eq_none_iff.1 hokb
  rw [withRegsAB_of_lt ha hb] at h
  cases h
  exact ⟨ha, hb, rfl⟩

variable {i : Instr} {s t : State}

theorem completes_of_exec (hok : operandFault i = none) (h : exec i s = .next t) : Completes i s t := by
  cases i with
  | hlt => cases h; exact .hlt
  | ret => cases h; exact .ret
  | push a => obtain ⟨ha, rfl⟩ := eq_of_withRegA_eq_next hok h; exact .push ha
  | pop a => obtain ⟨ha, rfl⟩ := eq_of_withRegA_eq_next hok h; exact .pop ha
  | prn a => obtain ⟨ha, rfl⟩ := eq_of_withRegA_eq_next hok h; exact .prn ha
  | call a => obtain ⟨ha, rfl⟩ := eq_of_withRegA_eq_next hok h; exact .call ha
  | jmp a => obtain ⟨ha, rfl⟩ := eq_of_withRegA_eq_next hok h; exact .jmp ha
  | jeq a =>
    obtain ⟨ha, rfl⟩ := eq_of_withRegA_eq_next hok h
    split
    · exact .jeqTaken ha ‹_›
    · exact .jeqUntaken ha (Bool.eq_false_iff.2 ‹_›)
  | jne a =>
    obtain ⟨ha, rfl⟩ := eq_of_withRegA_eq_next hok h
    split
    · exact .jneUntaken ha ‹_›
    · exact .jneTaken ha (Bool.eq_false_iff.2 ‹_›)
  | ldi a imm => obtain ⟨ha, rfl⟩ := eq_of_withRegA_eq_next hok h; exact .ldi ha
  | add a b => obtain ⟨ha, hb, rfl⟩ := eq_of_withRegsAB_eq_next hok h; exact .add ha hb
  | mul a b => obtain ⟨ha, hb, rfl⟩ := eq_of_withRegsAB_eq_next hok h; exact .mul ha hb
  | cmp a b => obtain ⟨ha, hb, rfl⟩ := eq_of_withRegsAB_eq_next hok h; exact .cmp ha hb

theorem Completes.exec_eq (h : Completes i s t) : exec i s = .next t := by
  cases h with
  | hlt => rfl
  | ret => rfl
  | push ha => exact withRegA_of_lt ha s _
  | pop ha => exact withRegA_of_lt ha s _
  | prn ha => exact withRegA_of_lt ha s _
  | call ha => exact withRegA_of_lt ha s _
  | jmp ha => exact withRegA_of_lt ha s _
  | jeqTaken ha he => exact (withRegA_of_lt ha s _).trans (by simp [he])
  | jeqUntaken ha he => exact (withRegA_of_lt ha s _).trans (by simp [he])
  | jneTaken ha he => exact (withRegA_of_lt ha s _).trans (by simp [he])
  | jneUntaken ha he => exact (withRegA_of_lt ha s _).trans (by simp [he])
  | ldi ha => exact withRegA_of_lt ha s _
  | add ha hb => exact withRegsAB_of_lt ha hb s _
  | mul ha hb => exact withRegsAB_of_lt ha hb s _
  | cmp ha hb => exact withRegsAB_of_lt ha hb s _

theorem Completes.operandFault_eq_none (h : Completes i s t) : operandFault i = none := by
  cases h <;> simp [operandFault, regFault_of_lt, *]

/-- `Completes` is `exec` on the instructions that pass the operand check. -/
theorem completes_iff : Completes i s t ↔ operandFault i = none ∧ exec i s = .next t :=
  ⟨fun h => ⟨h.operandFault_eq_none, h.exec_eq⟩, fun ⟨hok, h⟩ => completes_of_exec hok h⟩

/-- All that `exec` can do: raise the fault of the operand check, or complete. -/
theorem exec_cases (h : exec i s = .next t) :
    (∃ f, operandFault i = some f ∧ t = raiseFault f s) ∨ Completes i s t := by
  cases hf : operandFault i with
  | none => exact .inr (completes_of_exec hf h)
  | some f =>
    cases (exec_of_operandFault s hf).symm.trans h
    exact .inl ⟨f, rfl, rfl⟩

/-! ### The step -/

theorem firstFault_of_error {f : FaultValue} (h : fetchDecode s = .error f) : firstFault s = some f := by
  simp [firstFault, h]

theorem firstFault_of_ok (h : fetchDecode s = .ok i) : firstFault s = operandFault i := by
  simp [firstFault, h]

theorem step_of_firstFault {f : FaultValue} (hr : s.run = .running) (h : firstFault s = some f) :
    step s = .next (raiseFault f s) := by
  rw [step_of_running hr]
  cases hd : fetchDecode s with
  | error g =>
    cases (firstFault_of_error hd).symm.trans h
    rfl
  | ok i => exact exec_of_operandFault s ((firstFault_of_ok hd).symm.trans h)

theorem step_of_completes (hr : s.run = .running) (hd : fetchDecode s = .ok i) (h : Completes i s t) :
    step s = .next t := by
  rw [step_of_running hr, hd]
  exact h.exec_eq

/-- All that a step can do: from `Running`, raise the first fault of fetch, decode and operand check, or complete the
decoded instruction (spec/40_step_cycle.md R70, R77). -/
theorem step_eq_next_iff :
    step s = .next t ↔ s.run = .running ∧
      ((∃ f, firstFault s = some f ∧ t = raiseFault f s) ∨ ∃ i, fetchDecode s = .ok i ∧ Completes i s t) := by
  constructor
  · intro h
    obtain ⟨hr, ⟨f, hd, rfl⟩ | ⟨i, hd, he⟩⟩ := step_cases h
    · exact ⟨hr, .inl ⟨f, firstFault_of_error hd, rfl⟩⟩
    · refine ⟨hr, ?_⟩
      obtain ⟨f, hf, rfl⟩ | hc := exec_cases he
      · exact .inl ⟨f, (firstFault_of_ok hd).trans hf, rfl⟩
      · exact .inr ⟨i, hd, hc⟩
  · rintro ⟨hr, ⟨f, hf, rfl⟩ | ⟨i, hd, hc⟩⟩
    · exact step_of_firstFault hr hf
    · exact step_of_completes hr hd hc

theorem step_eq_exec_of_shows {op a b : Byte} (hr : s.run = .running) (hs : s.Shows op a b)
    (hd : decodeTriple op a b = .ok i) : step s = exec i s := by
  rw [step_of_running hr, fetchDecode_of_shows hs, hd]

theorem Executes.completes (h : Executes s i t) : Completes i s t := by
  obtain ⟨hr, hd, hok, hs⟩ := h
  rw [step_of_running hr, hd] at hs
  exact completes_of_exec hok hs

/-! ### What completing changes, part by part of the bundle -/

/-- HLT alone changes the run state (spec/10_state.md R20). -/
theorem Completes.run_eq (h : Completes i s t) : t.run = if i = .hlt then .halted else s.run := by
  cases h <;> simp

/-- CMP alone writes the flags (R17). -/
theorem Completes.flags_eq_of_ne_cmp (h : Completes i s t) (hi : i.kind ≠ .cmp) : t.flags = s.flags := by
  cases h with
  | cmp => exact absurd rfl hi
  | _ => rfl

theorem count_aluCompare (x y : Byte) : (aluCompare x y).count = 1 := by
  obtain ⟨-, h⟩ | ⟨-, h⟩ | ⟨-, h⟩ := aluCompare_cases x y <;> rw [h] <;> rfl

/-- After CMP exactly one flag is 1 (R18, R139, decision D7). -/
theorem Completes.flags_count_of_cmp (h : Completes i s t) (hi : i.kind = .cmp) : t.flags.count = 1 := by
  cases h with
  | cmp => rw [State.aluStep_flags, aluFlags_cmp, count_aluCompare]
  | _ => cases hi

/-- The flags are an input of JEQ and JNE alone, and of them only `E` (R17): from the same state with other flags the
instruction leads to the same state with other flags. -/
theorem Completes.withFlags (h : Completes i s t) (f : Flags)
    (hE : ∀ a, i = .jeq a ∨ i = .jne a → f.e = s.flags.e) :
    Completes i { s with flags := f } { t with flags := if i.kind = .cmp then t.flags else f } := by
  cases h with
  | hlt => exact .hlt
  | ret => exact .ret
  | push ha => exact .push ha
  | pop ha => exact .pop ha
  | prn ha => exact .prn ha
  | call ha => exact .call ha
  | jmp ha => exact .jmp ha
  | jeqTaken ha he => exact .jeqTaken ha ((hE _ (.inl rfl)).trans he)
  | jeqUntaken ha he => exact .jeqUntaken ha ((hE _ (.inl rfl)).trans he)
  | jneTaken ha he => exact .jneTaken ha ((hE _ (.inr rfl)).trans he)
  | jneUntaken ha he => exact .jneUntaken ha ((hE _ (.inr rfl)).trans he)
  | ldi ha => exact .ldi ha
  | add ha hb => exact .add ha hb
  | mul ha hb => exact .mul ha hb
  | cmp ha hb => exact .cmp ha hb

/-- The destination of a write that is seen in register `q` is `q`. -/
theorem index_eq_of_write_seen {k : Byte} {hk : k.toNat < 8} {q : RegIdx} {v w : Byte}
    (hne : (if (⟨k.toNat, hk⟩ : RegIdx) = q then v else w) ≠ w) : k.toNat = q.val := by
  by_contra hc
  exact hne (if_neg fun e => hc (congrArg Fin.val e))

/-- A register that changes is operand A of POP, LDI, ADD or MUL (R12). -/
theorem Completes.writes_operand_a {q : RegIdx} (h : Completes i s t) (hq : t.reg q ≠ s.reg q) :
    ∃ k : Byte, k.toNat = q.val ∧
      (i = .pop k ∨ (∃ imm, i = .ldi k imm) ∨ (∃ b, i = .add k b) ∨ (∃ b, i = .mul k b)) := by
  cases h with
  | pop ha => exact ⟨_, index_eq_of_write_seen (State.reg_setReg s _ q _ ▸ hq), .inl rfl⟩
  | ldi ha => exact ⟨_, index_eq_of_write_seen (State.reg_setReg s _ q _ ▸ hq), .inr (.inl ⟨_, rfl⟩)⟩
  | add ha hb => exact ⟨_, index_eq_of_write_seen (State.aluStep_reg s _ _ _ q ▸ hq), .inr (.inr (.inl ⟨_, rfl⟩))⟩
  | mul ha hb => exact ⟨_, index_eq_of_write_seen (State.aluStep_reg s _ _ _ q ▸ hq), .inr (.inr (.inr ⟨_, rfl⟩))⟩
  | cmp ha hb => exact absurd (by simp [State.aluStep_reg, aluResult]) hq
  | _ => exact absurd rfl hq

/-- At most one cell of memory is written (spec/20_memory.md R31). -/
theorem Completes.mem_eq_or_write (h : Completes i s t) : t.mem = s.mem ∨ ∃ a v, t.mem = s.mem.write a v := by
  cases h with
  | push => exact .inr ⟨_, _, rfl⟩
  | call => exact .inr ⟨_, _, rfl⟩
  | _ => exact .inl rfl

/-! ### The program counter: no addition wraps below the fetch limit (R15, R16) -/

theorem pc_add_two_toNat {p : Pc} (h : p.toNat ≤ 253) : (p + 2).toNat = p.toNat + 2 := pc_add_toNat h (by decide)

theorem pc_add_three_toNat {p : Pc} (h : p.toNat ≤ 253) : (p + 3).toNat = p.toNat + 3 := pc_add_toNat h (by decide)

/-- PUSH, POP and PRN fall through past two bytes. -/
theorem Completes.pc_eq_add_two (h : Completes i s t) (hi : i.kind = .push ∨ i.kind = .pop ∨ i.kind = .prn) :
    t.pc = s.pc + 2 := by
  cases h with
  | push => rfl
  | pop => rfl
  | prn => rfl
  | _ => simp [Instr.kind] at hi

/-- LDI, ADD, MUL and CMP fall through past three bytes. -/
theorem Completes.pc_eq_add_three (h : Completes i s t)
    (hi : i.kind = .ldi ∨ i.kind = .add ∨ i.kind = .mul ∨ i.kind = .cmp) : t.pc = s.pc + 3 := by
  cases h with
  | ldi => rfl
  | add => rfl
  | mul => rfl
  | cmp => rfl
  | _ => simp [Instr.kind] at hi

/-- The next `pc` is the old one, a byte, or the address past a two- or three-byte instruction. -/
theorem Completes.pc_cases (h : Completes i s t) :
    t.pc = s.pc ∨ (∃ v : Byte, t.pc = zext9 v) ∨ t.pc = s.pc + 2 ∨ t.pc = s.pc + 3 := by
  cases h with
  | hlt => exact .inl rfl
  | ret => exact .inr (.inl ⟨_, rfl⟩)
  | call => exact .inr (.inl ⟨_, rfl⟩)
  | jmp => exact .inr (.inl ⟨_, rfl⟩)
  | jeqTaken => exact .inr (.inl ⟨_, rfl⟩)
  | jneTaken => exact .inr (.inl ⟨_, rfl⟩)
  | push | pop | prn | jeqUntaken | jneUntaken => exact .inr (.inr (.inl rfl))
  | ldi | add | mul | cmp => exact .inr (.inr (.inr rfl))

theorem Completes.pc_le (h : Completes i s t) (hp : s.pc.toNat ≤ 253) : t.pc.toNat ≤ 256 := by
  obtain hpc | ⟨v, hpc⟩ | hpc | hpc := h.pc_cases
  · rw [hpc]; omega
  · have := v.isLt
    rw [hpc, zext9_toNat]; omega
  · rw [hpc, pc_add_two_toNat hp]; omega
  · rw [hpc, pc_add_three_toNat hp]; omega

end Sys2Proof.Machine
end

section
/-!
PROOFS. Reset, the invariant of every reachable state (spec/10_state.md R25, R26), and the run state (R20).
-/

open Sys2Proof Sys2Proof.Machine

namespace Sys2Proof.Machine

theorem runExplained_of_running {s : State} (h : s.run = .running) : RunExplained s := by
  simp [RunExplained, h]

theorem runExplained_of_halted {s : State} (h : s.run = .halted) (hd : fetchDecode s = .ok .hlt) : RunExplained s := by
  simpa [RunExplained, h] using hd

theorem runExplained_of_faulted {s : State} {f : FaultValue} (h : s.run = .faulted f) (hf : firstFault s = some f) :
    RunExplained s := by
  simpa [RunExplained, h] using hf

/-- A fault leaves `pc` and memory, so what it found is still there (R176, decision D13). -/
theorem inv_raiseFault {s : State} {f : FaultValue} (hs : s.Inv) (hf : firstFault s = some f) :
    (raiseFault f s).Inv :=
  ⟨hs.pc_le, hs.flags_le, hs.mem_wf, runExplained_of_faulted rfl ((firstFault_congr rfl rfl).trans hf)⟩

theorem Completes.inv {i : Instr} {s t : State} (h : Completes i s t) (hs : s.Inv) (hr : s.run = .running)
    (hd : fetchDecode s = .ok i) : t.Inv where
  pc_le := h.pc_le (pc_le_of_fetchDecode hd)
  flags_le := by
    by_cases hi : i.kind = .cmp
    · exact (h.flags_count_of_cmp hi).le
    · exact h.flags_eq_of_ne_cmp hi ▸ hs.flags_le
  mem_wf := by
    obtain hm | ⟨a, v, hm⟩ := h.mem_eq_or_write
    · exact hm ▸ hs.mem_wf
    · exact hm ▸ Memory.wf_write hs.mem_wf a v
  run_explained := by
    by_cases hi : i = .hlt
    · subst hi
      cases h
      exact runExplained_of_halted rfl ((fetchDecode_congr rfl rfl).trans hd)
    · exact runExplained_of_running (by rw [h.run_eq, if_neg hi, hr])

theorem inv_step {s t : State} (hs : s.Inv) (h : step s = .next t) : t.Inv := by
  obtain ⟨hr, ⟨f, hf, rfl⟩ | ⟨i, hd, hc⟩⟩ := step_eq_next_iff.1 h
  · exact inv_raiseFault hs hf
  · exact hc.inv hs hr hd

theorem inv_launch {m0 : Memory} (h : m0.wf) : (launch m0).Inv :=
  ⟨by simp, by simp [Flags.count], h, runExplained_of_running rfl⟩

theorem run_succ_eq_next {k : Nat} {s t : State} (h : core.run (k + 1) s = .next t) :
    ∃ u : State, step s = .next u ∧ core.run k u = .next t := by
  simp only [Host.Core.run] at h
  split at h
  · exact ⟨_, ‹_›, h⟩
  · cases h
  · cases h

/-- What every step keeps, every run keeps. -/
theorem run_induction {P : State → Prop} (hstep : ∀ s t, P s → step s = .next t → P t) {k : Nat} {s t : State}
    (hs : P s) (h : core.run k s = .next t) : P t := by
  induction k generalizing s with
  | zero => cases h; exact hs
  | succ k ih =>
    obtain ⟨u, hu, hrun⟩ := run_succ_eq_next h
    exact ih (hstep s u hs hu) hrun

end Sys2Proof.Machine

/-- Settles O15: every field of the reset state is one of the laws of `assertReset`. -/
theorem resetLeavesTheSpecifiedValues : Obligations.ResetLeavesTheSpecifiedValues := by
  refine ⟨fun s => ?_, fun x => rfl, rfl⟩
  exact ⟨launch_reg s.mem, rfl, rfl, rfl, rfl, rfl, rfl, rfl, rfl⟩

/-- Settles O17: a launch runs from `pc` 0 with no flag set, over the canonical image it is given. -/
theorem launchMeetsTheInvariant : Obligations.LaunchMeetsTheInvariant :=
  ⟨fun _ h => inv_launch h, inv_launch Memory.wf_nil⟩

/-- Settles O18, by the two things a step can do: take its first fault, or complete its instruction. -/
theorem everyStepKeepsTheInvariant : Obligations.EveryStepKeepsTheInvariant :=
  fun _ _ hs h => inv_step hs h

/-- Settles O19, by induction on the number of steps: the launch meets the invariant and every step keeps it. -/
theorem everyRunKeepsTheInvariant : Obligations.EveryRunKeepsTheInvariant :=
  fun _ _ _ hm h => run_induction (fun _ _ => inv_step) (inv_launch hm) h

/-- Settles O13: a step that faults has a first fault and no HLT to complete; a step that completes has no first fault,
and leaves `Running` exactly if it completes HLT. -/
theorem runStateTransitions : Obligations.RunStateTransitions := by
  intro s t h
  obtain ⟨hr, ⟨f, hf, rfl⟩ | ⟨i, hd, hc⟩⟩ := step_eq_next_iff.1 h
  · have hne : fetchDecode s ≠ .ok .hlt := fun hd => by simp [firstFault_of_ok hd, operandFault] at hf
    exact ⟨hr, by simp [hne], by simp [hf]⟩
  · have hnone : firstFault s = none := (firstFault_of_ok hd).trans hc.operandFault_eq_none
    have hrun := hc.run_eq
    rw [hr] at hrun
    by_cases hi : i = .hlt <;> simp [hr, hrun, hd, hnone, hi]
end

section
/-!
PROOFS. What a run without a fault keeps a record of: the flags whether a CMP has executed, `sp` the stack instructions,
the output the PRNs (spec/10_state.md R17, R19, R21). Each is a rule for one completed instruction and an induction over
the run.
-/

open Sys2Proof Sys2Proof.Machine

namespace Sys2Proof.Machine

theorem countKind_cons (k : Kind) (i : Instr) (is : List Instr) :
    countKind k (i :: is) = countKind k is + if i.kind = k then 1 else 0 := by
  simp [countKind, List.countP_cons]

/-- Without a CMP a run leaves the flags; from the first CMP on exactly one is 1 (R17, R18, decision D7). -/
theorem Trace.flags {s t : State} {is : List Instr} (h : Trace s is t) :
    (countKind .cmp is = 0 → t.flags = s.flags) ∧ (0 < countKind .cmp is → t.flags.count = 1) := by
  induction h with
  | done s => exact ⟨fun _ => rfl, fun hpos => absurd hpos (lt_irrefl 0)⟩
  | @more s t u i is hx _ ih =>
    obtain ⟨ihNone, ihSome⟩ := ih
    rw [countKind_cons]
    by_cases hi : i.kind = .cmp
    · refine ⟨fun hz => by simp [hi] at hz, fun _ => ?_⟩
      obtain hz | hpos := Nat.eq_zero_or_pos (countKind .cmp is)
      · rw [ihNone hz]; exact hx.completes.flags_count_of_cmp hi
      · exact ihSome hpos
    · simp only [if_neg hi, Nat.add_zero]
      exact ⟨fun hz => (ihNone hz).trans (hx.completes.flags_eq_of_ne_cmp hi), ihSome⟩

/-- PUSH and RET move `sp` up by one, POP and CALL down by one, modulo 256, and nothing else moves it (R19, R99,
decision D5). -/
theorem Completes.sp_count {i : Instr} {s t : State} (h : Completes i s t) :
    (t.sp.toNat + (if i.kind = .pop then 1 else 0) + (if i.kind = .call then 1 else 0)) % 256 =
      (s.sp.toNat + (if i.kind = .push then 1 else 0) + (if i.kind = .ret then 1 else 0)) % 256 := by
  have up : (s.sp + 1).toNat % 256 = (s.sp.toNat + 1) % 256 := by simp [BitVec.toNat_add]
  have down : ((s.sp - 1).toNat + 1) % 256 = s.sp.toNat % 256 := by bv_omega
  cases h with
  | push => exact up
  | ret => exact up
  | pop => exact down
  | call => exact down
  | _ => simp [Instr.kind]

theorem Trace.sp_count {s t : State} {is : List Instr} (h : Trace s is t) :
    (t.sp.toNat + countKind .pop is + countKind .call is) % 256 =
      (s.sp.toNat + countKind .push is + countKind .ret is) % 256 := by
  induction h with
  | done s => rfl
  | more hx _ ih =>
    have hstep := hx.completes.sp_count
    simp only [countKind_cons]
    omega

/-- PRN appends one value to the output, and nothing else appends or removes one (R21, decision D15). -/
theorem Completes.out_append {i : Instr} {s t : State} (h : Completes i s t) :
    ∃ vs : List Byte, t.out = s.out ++ vs ∧ vs.length = if i.kind = .prn then 1 else 0 := by
  cases h with
  | prn => exact ⟨[_], rfl, rfl⟩
  | _ => exact ⟨[], (List.append_nil _).symm, rfl⟩

theorem Trace.out_append {s t : State} {is : List Instr} (h : Trace s is t) :
    ∃ vs : List Byte, t.out = s.out ++ vs ∧ vs.length = countKind .prn is := by
  induction h with
  | done s => exact ⟨[], by simp, rfl⟩
  | more hx _ ih =>
    obtain ⟨vs, hvs, hlen⟩ := hx.completes.out_append
    obtain ⟨ws, hws, hlen'⟩ := ih
    refine ⟨vs ++ ws, by rw [hws, hvs, List.append_assoc], ?_⟩
    rw [countKind_cons, List.length_append, hlen, hlen', Nat.add_comm]

end Sys2Proof.Machine

/-- Settles O20: the record the flags keep along a run, from a launch, whose flags are all 0. -/
theorem flagsRecordWhetherACmpHasExecuted : Obligations.FlagsRecordWhetherACmpHasExecuted := by
  intro m0 is t h
  obtain ⟨hnone, hsome⟩ := h.flags
  exact ⟨fun hz => by rw [hnone hz]; rfl, hsome⟩

/-- Settles O21: the count along a run, where for balanced operations both sides lose the same number. -/
theorem stackPointerCountsTheStackInstructions : Obligations.StackPointerCountsTheStackInstructions := by
  intro s t is h
  have hcount := h.sp_count
  refine ⟨hcount, fun hpush hcall => BitVec.eq_of_toNat_eq ?_⟩
  have hs := s.sp.isLt
  have ht := t.sp.isLt
  omega

/-- Settles O22: each completed instruction appends one value if it is PRN and none if it is not. -/
theorem outputHistoryGrowsOncePerPrn : Obligations.OutputHistoryGrowsOncePerPrn :=
  fun _ _ _ h => h.out_append
end

section
/-!
PROOFS. Who writes and who reads the flags, who writes a register, and the next `pc` (spec/10_state.md R12, R15, R17).
-/

open Sys2Proof Sys2Proof.Machine

namespace Sys2Proof.Machine

variable {s t : State}

theorem sameButLG_iff : SameButLG s t ↔ ∃ f : Flags, f.e = s.flags.e ∧ t = { s with flags := f } := by
  constructor
  · exact fun h => ⟨{ s.flags with l := t.flags.l, g := t.flags.g }, rfl, h⟩
  · rintro ⟨⟨e, l, g⟩, rfl, rfl⟩
    rfl

/-- No port activity depends on the flags, for the data access and the output are found from registers, `sp` and memory
(spec/50_interfaces.md R155, R156). -/
theorem stepTransactions_withFlags (s : State) (f : Flags) :
    stepTransactions { s with flags := f } = stepTransactions s := rfl

theorem stepOutput_withFlags (s : State) (f : Flags) : stepOutput { s with flags := f } = stepOutput s := rfl

/-- A step sees `E` of the flags at most, and passes a change of `L` and `G` on or overwrites it (R17). -/
theorem step_of_sameButLG {s' : State} (hst : SameButLG s t) (h : step s = .next s') :
    ∃ t', step t = .next t' ∧ SameButLG s' t' := by
  obtain ⟨f, hE, rfl⟩ := sameButLG_iff.1 hst
  obtain ⟨hr, ⟨v, hv, rfl⟩ | ⟨i, hd, hc⟩⟩ := step_eq_next_iff.1 h
  · exact ⟨_, step_of_firstFault hr ((firstFault_congr rfl rfl).trans hv), sameButLG_iff.2 ⟨f, hE, rfl⟩⟩
  · refine ⟨_, step_of_completes hr ((fetchDecode_congr rfl rfl).trans hd) (hc.withFlags f fun _ _ => hE),
      sameButLG_iff.2 ⟨_, ?_, rfl⟩⟩
    split
    · rfl
    · rename_i hi
      rw [hE, hc.flags_eq_of_ne_cmp hi]

theorem exists_cmp_of_flags_ne {i : Instr} (h : exec i s = .next t) (hne : t.flags ≠ s.flags) :
    ∃ a b, i = .cmp a b := by
  obtain ⟨f, -, rfl⟩ | hc := exec_cases h
  · exact absurd rfl hne
  · cases hc with
    | cmp => exact ⟨_, _, rfl⟩
    | _ => exact absurd rfl hne

/-- The result of an instruction that reads no flag, but for the flags themselves, is the same whatever the flags are. -/
theorem exec_withFlags {i : Instr} (f : Flags) (hjeq : ∀ a, i ≠ .jeq a) (hjne : ∀ a, i ≠ .jne a)
    (h : exec i s = .next t) :
    ∃ u, exec i { s with flags := f } = .next u ∧ u = { t with flags := u.flags } := by
  obtain ⟨v, hv, rfl⟩ | hc := exec_cases h
  · exact ⟨_, exec_of_operandFault _ hv, rfl⟩
  · refine ⟨_, (hc.withFlags f fun a hi => ?_).exec_eq, rfl⟩
    exact (hi.elim (hjeq a) (hjne a)).elim

end Sys2Proof.Machine

/-- Settles O23: the writer is found by cases on the completed instruction, the readers from `Completes.withFlags`. -/
theorem flagsHaveOneWriterAndLGNoReader : Obligations.FlagsHaveOneWriterAndLGNoReader := by
  refine ⟨fun _ _ _ => exists_cmp_of_flags_ne, fun _ _ _ f hjeq hjne => exec_withFlags f hjeq hjne,
    fun s t hst => ?_, fun s a ha => ?_⟩
  · obtain ⟨f, -, rfl⟩ := sameButLG_iff.1 hst
    exact ⟨stepTransactions_withFlags s f, stepOutput_withFlags s f, rfl, fun _ => step_of_sameButLG hst⟩
  · cases he : s.flags.e with
    | true =>
      exact ⟨_, _, (Completes.jeqTaken ha he).exec_eq, (Completes.jneUntaken ha he).exec_eq, fun _ => ⟨rfl, rfl⟩, nofun⟩
    | false =>
      exact ⟨_, _, (Completes.jeqUntaken ha he).exec_eq, (Completes.jneTaken ha he).exec_eq, nofun, fun _ => ⟨rfl, rfl⟩⟩

/-- Settles O24: a fault changes no register, and a completed instruction only its destination. -/
theorem registersAreWrittenOnlyAsOperandA : Obligations.RegistersAreWrittenOnlyAsOperandA := by
  intro i s t q h hq
  obtain ⟨f, -, rfl⟩ | hc := exec_cases h
  · exact absurd rfl hq
  · exact hc.writes_operand_a hq

/-- Settles O27, row by row: a bad operand is a fault, which leaves `pc`; in every other row the instruction completes,
and below the fetch limit no sum wraps. -/
theorem nextPcTable : Obligations.NextPcTable := by
  intro s t op a b i hr hs hd h
  rw [step_eq_exec_of_shows hr hs hd] at h
  have hp := hs.pc_le
  have completes (hok : operandFault i = none) : Completes i s t := completes_of_exec hok h
  refine ⟨?_, ?_, ?_, ?_, ?_, ?_, ?_, ?_, ?_⟩
  · obtain ⟨f, -, rfl⟩ | hc := exec_cases h
    · exact hp.trans (by decide)
    · exact hc.pc_le hp
  · intro hbad
    obtain ⟨f, -, rfl⟩ | hc := exec_cases h
    · rfl
    · exact absurd hc.operandFault_eq_none hbad
  · rintro rfl
    cases h
    rfl
  · rintro rfl
    cases h
    exact zext9_toNat _
  · intro hok hi
    rw [(completes hok).pc_eq_add_two hi, pc_add_two_toNat hp]
  · rintro k hk (rfl | rfl)
    · cases completes (regFault_of_lt hk)
      exact zext9_toNat _
    · cases completes (regFault_of_lt hk)
      exact zext9_toNat _
  · rintro k hk rfl
    cases completes (regFault_of_lt hk) with
    | jeqTaken _ he => rw [if_pos he]; exact zext9_toNat _
    | jeqUntaken _ he => rw [if_neg (by simp [he])]; exact pc_add_two_toNat hp
  · rintro k hk rfl
    cases completes (regFault_of_lt hk) with
    | jneTaken _ he => rw [if_pos he]; exact zext9_toNat _
    | jneUntaken _ he => rw [if_neg (by simp [he])]; exact pc_add_two_toNat hp
  · intro hok hi
    rw [(completes hok).pc_eq_add_three hi, pc_add_three_toNat hp]
end

section
/-!
PROOFS. Memory: what a canonical list holds is what it reads as, what a fetch sees after a store, and which accesses a
step makes (spec/20_memory.md R30, R31, R38, R42).
-/

open Sys2Proof Sys2Proof.Machine

namespace Sys2Proof.Machine

/-! ### The canonical form (R30) -/

/-- A listed cell reads as its byte, for no cell before it has its address. -/
theorem Memory.readCell_of_mem {m : Memory} (hp : m.Pairwise fun c d => c.1 < d.1) {c : Host.Cell} (hc : c ∈ m) :
    m.readCell c.1 = c.2 := by
  induction m with
  | nil => cases hc
  | cons d m ih =>
    obtain ⟨hlt, hp⟩ := List.pairwise_cons.1 hp
    rw [readCell]
    obtain rfl | hc := List.mem_cons.1 hc
    · exact if_pos rfl
    · rw [if_neg (hlt c hc).ne]
      exact ih hp hc

/-- A cell that does not read as an unlisted one is listed. -/
theorem Memory.mem_of_readCell_ne {m : Memory} {n : Nat} (h : m.readCell n ≠ Memory.unlisted) :
    (n, m.readCell n) ∈ m := by
  induction m with
  | nil => exact absurd rfl h
  | cons c m ih =>
    rw [readCell] at h ⊢
    split at h
    · next hn => rw [if_pos hn, ← hn]; exact List.mem_cons_self
    · next hn => rw [if_neg hn]; exact List.mem_cons_of_mem c (ih h)

/-- A canonical memory lists exactly the cells that do not read as unlisted ones, each with what it reads as. -/
theorem Memory.mem_iff_of_wf {m : Memory} (h : m.wf) {c : Host.Cell} :
    c ∈ m ↔ c.1 < Config.memCells ∧ c.2 ≠ Memory.unlisted ∧ m.read (BitVec.ofNat 8 c.1) = c.2 := by
  obtain ⟨hp, hcells⟩ := h
  have hread (hlt : c.1 < Config.memCells) : m.read (BitVec.ofNat 8 c.1) = m.readCell c.1 :=
    congrArg m.readCell (Nat.mod_eq_of_lt hlt)
  constructor
  · intro hc
    obtain ⟨hlt, hne⟩ := hcells c hc
    exact ⟨hlt, hne, (hread hlt).trans (readCell_of_mem hp hc)⟩
  · rintro ⟨hlt, hne, hv⟩
    rw [hread hlt] at hv
    have hmem := mem_of_readCell_ne (hv ▸ hne)
    rwa [hv] at hmem

/-- The order of a canonical list determines it from its cells. -/
theorem Memory.eq_of_mem_iff {m n : Memory} (hm : m.wf) (hn : n.wf) (h : ∀ c, c ∈ m ↔ c ∈ n) : m = n := by
  have : Std.Asymm fun c d : Host.Cell => c.1 < d.1 := ⟨fun _ _ => Nat.lt_asymm⟩
  exact hm.1.eq_of_mem_iff hn.1 h

/-! ### The fetch after a store (R38, R42) -/

variable {i : Instr} {s t : State}

/-- Fetch below the limit, in the cell numbers that statements use (spec/40_step_cycle.md R72). -/
theorem fetch_eq_cells (h : s.pc.toNat ≤ 253) :
    fetch s = .ok { op := s.cell s.pc.toNat, a := s.cell (s.pc.toNat + 1), b := s.cell (s.pc.toNat + 2) } := by
  rw [fetch_of_le h, read_fetchAddr, read_fetchAddr, read_fetchAddr]
  rfl

theorem fetch_of_shows {op a b : Byte} (h : s.Shows op a b) : fetch s = .ok { op := op, a := a, b := b } := by
  obtain ⟨hp, rfl, rfl, rfl⟩ := h
  exact fetch_eq_cells hp

theorem cell_of_mem_eq_write {x : Addr} {v : Byte} (hm : t.mem = s.mem.write x v) (n : Nat) :
    t.cell n = if BitVec.ofNat 8 n = x then v else s.cell n := by
  simp only [State.cell, hm, Memory.read_write, eq_comm]

/-- A fetch from a state whose memory is the old one with one cell stored gives the stored byte at that cell and the old
bytes elsewhere. -/
theorem fetch_of_mem_eq_write {x : Addr} {v : Byte} (hm : t.mem = s.mem.write x v) (hp : t.pc.toNat ≤ 253)
    {seen : Nat → Byte} (hseen : ∀ n, seen n = if BitVec.ofNat 8 n = x then v else s.cell n) :
    fetch t = .ok { op := seen t.pc.toNat, a := seen (t.pc.toNat + 1), b := seen (t.pc.toNat + 2) } := by
  simp only [fetch_eq_cells hp, cell_of_mem_eq_write hm, hseen]

/-! ### The accesses of a step (R31) -/

theorem fetchAddr_eq_ofNat (s : State) (k : Pc) : s.fetchAddr k = BitVec.ofNat 8 (s.pc.toNat + k.toNat) := by
  apply BitVec.eq_of_toNat_eq
  simp only [State.fetchAddr, low8, BitVec.toNat_setWidth, BitVec.toNat_add, BitVec.toNat_ofNat]
  omega

theorem fetchReads_of_shows {op a b : Byte} (h : s.Shows op a b) :
    fetchReads s = [.read (BitVec.ofNat 8 s.pc.toNat) op, .read (BitVec.ofNat 8 (s.pc.toNat + 1)) a,
      .read (BitVec.ofNat 8 (s.pc.toNat + 2)) b] := by
  obtain ⟨-, rfl, rfl, rfl⟩ := h
  simp only [fetchReads, fetchAddr_eq_ofNat]
  rfl

/-- A running state that shows a decodable triple makes the three reads of the fetch and then the instruction's own
access (spec/50_interfaces.md R155). -/
theorem stepTransactions_of_shows {op a b : Byte} (hr : s.run = .running) (hs : s.Shows op a b)
    (hd : decodeTriple op a b = .ok i) : stepTransactions s = fetchReads s ++ (dataAccess i s).toList := by
  simp only [stepTransactions, stopReason_eq_none.2 hr, fetch_of_shows hs, hd]

theorem dataAccess_push {k : Byte} (h : k.toNat < 8) :
    dataAccess (.push k) s = some (.write s.pushAddr (s.reg ⟨k.toNat, h⟩)) := by
  simp [dataAccess, regidx_of_lt h]

theorem dataAccess_pop {k : Byte} (h : k.toNat < 8) : dataAccess (.pop k) s = some (.read s.sp s.stackTop) := by
  simp [dataAccess, regidx_of_lt h]

theorem dataAccess_call {k : Byte} (h : k.toNat < 8) :
    dataAccess (.call k) s = some (.write s.callAddr s.returnAddr) := by
  simp [dataAccess, regidx_of_lt h]

theorem regidx_eq_none_of_regFault_ne {k : Byte} (h : regFault k ≠ none) : regidx k = none :=
  regidx_of_ge (not_lt.1 (mt regFault_eq_none_iff.2 h))

/-- An instruction with a bad register operand makes no data access. -/
theorem dataAccess_of_operandFault_ne (h : operandFault i ≠ none) : dataAccess i s = none := by
  cases i with
  | push k => simp [dataAccess, regidx_eq_none_of_regFault_ne h]
  | pop k => simp [dataAccess, regidx_eq_none_of_regFault_ne h]
  | call k => simp [dataAccess, regidx_eq_none_of_regFault_ne h]
  | ret => exact absurd rfl h
  | _ => rfl

/-- No instruction but the four of the stack makes a data access. -/
theorem dataAccess_of_kind_ne (hpush : i.kind ≠ .push) (hpop : i.kind ≠ .pop) (hcall : i.kind ≠ .call)
    (hret : i.kind ≠ .ret) : dataAccess i s = none := by
  cases i with
  | push => exact absurd rfl hpush
  | pop => exact absurd rfl hpop
  | call => exact absurd rfl hcall
  | ret => exact absurd rfl hret
  | _ => rfl

/-- Only PUSH and CALL store. -/
theorem Completes.kind_of_mem_ne (h : Completes i s t) (hne : t.mem ≠ s.mem) : i.kind = .push ∨ i.kind = .call := by
  cases h with
  | push => exact .inl rfl
  | call => exact .inr rfl
  | _ => exact absurd rfl hne

end Sys2Proof.Machine

/-- Settles O48: canonical memories that read alike list the same cells, each with the same byte, in the one order. -/
theorem canonicalMemoriesThatReadAlikeAreEqual : Obligations.CanonicalMemoriesThatReadAlikeAreEqual := by
  intro m n hm hn hread
  refine Memory.eq_of_mem_iff hm hn fun c => ?_
  rw [Memory.mem_iff_of_wf hm, Memory.mem_iff_of_wf hn, hread]

/-- Settles O45: with a legal operand PUSH and CALL complete, and each leaves memory with its one cell stored. -/
theorem nextFetchSeesTheStore : Obligations.NextFetchSeesTheStore := by
  refine ⟨fun s t a ha h hp seen hseen => ?_, fun s t a ha h hp seen hseen => ?_⟩
  · have hc : Completes (.push a) s t := completes_of_exec (regFault_of_lt ha) h
    cases hc
    exact fetch_of_mem_eq_write rfl hp hseen
  · have hc : Completes (.call a) s t := completes_of_exec (regFault_of_lt ha) h
    cases hc
    exact fetch_of_mem_eq_write rfl hp hseen

/-- Settles O25: after the fetch's reads stands the data access of the decoded instruction, found row by row; and a fault
leaves memory, so a change of it is the store of a completed PUSH or CALL. -/
theorem memoryAccessesOfAStep : Obligations.MemoryAccessesOfAStep := by
  refine ⟨fun s op a b i hr hs hd => ?_, fun i s t h hne => ?_⟩
  · refine ⟨(dataAccess i s).toList, ?_, ?_, ?_, ?_, ?_, ?_, ?_⟩
    · rw [stepTransactions_of_shows hr hs hd, fetchReads_of_shows hs]
    · rintro k hk rfl
      rw [dataAccess_push hk]
      rfl
    · rintro k hk rfl
      rw [dataAccess_pop hk]
      rfl
    · rintro k hk rfl
      rw [dataAccess_call hk]
      rfl
    · rintro rfl
      rfl
    · intro hbad
      rw [dataAccess_of_operandFault_ne hbad]
      rfl
    · intro hpush hpop hcall hret
      rw [dataAccess_of_kind_ne hpush hpop hcall hret]
      rfl
  · obtain ⟨f, -, rfl⟩ | hc := exec_cases h
    · exact absurd rfl hne
    · exact hc.kind_of_mem_ne hne
end

section
/-!
PROOFS. Encoding and decoding: the decoder builds the instruction of the row its opcode byte stands in, and refuses a
byte of no row (spec/30_encoding.md R50 to R58).
-/

open Sys2Proof Sys2Proof.Machine

namespace Sys2Proof

/-! ### The decoder by rows (R55) -/

theorem decodeTriple_opcode (k : Kind) (a b : Byte) : decodeTriple k.opcode a b = .ok (k.build a b) :=
  decodeTriple_of_lookup (lookupOpcode_opcode k) a b

/-- The opcode bytes as R73 lists them are the opcode column of the map of R55. -/
theorem tableOpcodes_eq_map : tableOpcodes = opcodeTable.map (·.1) := rfl

theorem decodeTriple_of_not_mem {op : Byte} (h : op ∉ tableOpcodes) (a b : Byte) :
    decodeTriple op a b = .error (.invalidOpcode op) :=
  decodeTriple_of_lookup_none ((lookupOpcode_eq_none_iff op).2 (tableOpcodes_eq_map ▸ h)) a b

/-- All that the decoder accepts: the opcode byte of a row, and then what that row builds from the operand bytes. -/
theorem decodeTriple_eq_ok_iff {op a b : Byte} {i : Instr} :
    decodeTriple op a b = .ok i ↔ ∃ k : Kind, op = k.opcode ∧ i = k.build a b := by
  constructor
  · intro h
    cases hk : lookupOpcode op with
    | none => cases (decodeTriple_of_lookup_none hk a b).symm.trans h
    | some k =>
      cases (decodeTriple_of_lookup hk a b).symm.trans h
      exact ⟨k, opcode_of_lookupOpcode hk, rfl⟩
  · rintro ⟨k, rfl, rfl⟩
    exact decodeTriple_opcode k a b

theorem mem_tableOpcodes_of_decodeTriple {op a b : Byte} {i : Instr} (h : decodeTriple op a b = .ok i) :
    op ∈ tableOpcodes := by
  by_contra hop
  cases (decodeTriple_of_not_mem hop a b).symm.trans h

/-! ### Which operand bytes an instruction holds (R50, R54) -/

/-- Whatever follows the operand bytes of an instruction, its kind builds it back from the first two bytes there. -/
theorem exists_build_eq_of_operands_append (i : Instr) (x y : Byte) (rest : List Byte) :
    ∃ a b tl, i.operands ++ x :: y :: rest = a :: b :: tl ∧ i.kind.build a b = i := by
  cases i with
  | hlt | ret => exact ⟨x, y, rest, rfl, rfl⟩
  | push a | pop a | prn a | call a | jmp a | jeq a | jne a => exact ⟨a, x, y :: rest, rfl, rfl⟩
  | ldi a b | add a b | mul a b | cmp a b => exact ⟨a, b, x :: y :: rest, rfl, rfl⟩

theorem encode_build_isPrefix (k : Kind) (a b : Byte) : encode (k.build a b) <+: [k.opcode, a, b] := by
  cases k with
  | hlt | ret => exact ⟨[a, b], rfl⟩
  | push | pop | prn | call | jmp | jeq | jne => exact ⟨[b], rfl⟩
  | ldi | add | mul | cmp => exact ⟨[], rfl⟩

theorem decodeBytes_encode_append (i : Instr) (x y : Byte) (rest : List Byte) :
    decodeBytes (encode i ++ x :: y :: rest) = .ok i := by
  obtain ⟨a, b, tl, hbytes, hbuild⟩ := exists_build_eq_of_operands_append i x y rest
  rw [encode, List.cons_append, hbytes, decodeBytes, decodeTriple_opcode, hbuild]

/-- Format R takes operand A alone. -/
theorem Kind.build_of_format_r {k : Kind} (h : k.format = .r) (a b b' : Byte) : k.build a b = k.build a b' := by
  cases k with
  | push | pop | prn | call | jmp | jeq | jne => rfl
  | _ => cases h

/-- Each opcode of format R stands in a row of that format. -/
theorem exists_kind_of_mem_formatROpcodes {op : Byte} (h : op ∈ formatROpcodes) :
    ∃ k : Kind, k.opcode = op ∧ k.format = .r := by
  have hrows : ∀ op ∈ formatROpcodes, ∃ row ∈ opcodeTable, row.2.opcode = op ∧ row.2.format = .r := by decide
  obtain ⟨row, -, hrow⟩ := hrows op h
  exact ⟨row.2, hrow⟩

/-! ### Counting the bytes outside a list (R57) -/

theorem perm_filter_range_mem {l : List Byte} (h : l.Nodup) :
    ((List.range 256).filter fun n => decide (BitVec.ofNat 8 n ∈ l)).Perm (l.map BitVec.toNat) := by
  refine (List.perm_ext_iff_of_nodup (List.nodup_range.filter _) (h.map fun _ _ => BitVec.eq_of_toNat_eq)).2 fun n => ?_
  simp only [List.mem_filter, List.mem_range, decide_eq_true_eq, List.mem_map]
  constructor
  · exact fun ⟨hlt, hmem⟩ => ⟨_, hmem, Nat.mod_eq_of_lt hlt⟩
  · rintro ⟨v, hv, rfl⟩
    exact ⟨v.isLt, by rwa [BitVec.ofNat_toNat, BitVec.setWidth_eq]⟩

/-- Of the 256 byte values, those outside a list of distinct bytes are all but the list's length. -/
theorem length_filter_range_not_mem {l : List Byte} (h : l.Nodup) :
    ((List.range 256).filter fun n => decide (BitVec.ofNat 8 n ∉ l)).length = 256 - l.length := by
  have hsplit := List.length_eq_length_filter_add (l := List.range 256) fun n => decide (BitVec.ofNat 8 n ∈ l)
  rw [(perm_filter_range_mem h).length_eq, List.length_map, List.length_range] at hsplit
  simp only [decide_not]
  omega

end Sys2Proof

namespace Sys2Proof.Machine

variable {s : State} {op a b : Byte}

/-! ### The faults of the fetch and of an opcode outside the table (R57, R71) -/

theorem firstFault_of_gt (h : 253 < s.pc.toNat) : firstFault s = some (.outOfBounds .mem 256) :=
  firstFault_of_error (fetchDecode_of_gt h)

theorem fetchFaultClause_holds : FetchFaultClause :=
  fun _ hr h => step_of_firstFault hr (firstFault_of_gt h)

theorem firstFault_of_shows_not_mem (hs : s.Shows op a b) (hop : op ∉ tableOpcodes) :
    firstFault s = some (.invalidOpcode op s.pc) := by
  refine firstFault_of_error ?_
  rw [fetchDecode_of_shows hs, decodeTriple_of_not_mem hop]
  rfl

/-! ### The reads of a step (R54, R155) -/

theorem stepTransactions_of_shows_error {e : DecodeError} (hr : s.run = .running) (hs : s.Shows op a b)
    (hd : decodeTriple op a b = .error e) : stepTransactions s = fetchReads s := by
  simp only [stepTransactions, stopReason_eq_none.2 hr, fetch_of_shows hs, hd]

/-- Whether the triple decodes or not, the step's first three transactions are the reads of the fetch. -/
theorem take_stepTransactions_of_shows (hr : s.run = .running) (hs : s.Shows op a b) :
    (stepTransactions s).take 3 = fetchReads s := by
  cases hd : decodeTriple op a b with
  | error e => rw [stepTransactions_of_shows_error hr hs hd]; rfl
  | ok i => rw [stepTransactions_of_shows hr hs hd]; rfl

end Sys2Proof.Machine

/-- Settles O1: what follows the opcode byte of an encoding begins with the operand bytes its row builds from; and a
triple that decodes is of the form of one row, whose encoding keeps the bytes its format uses. -/
theorem decodeInvertsEncode : Obligations.DecodeInvertsEncode := by
  refine ⟨decodeBytes_encode_append, fun op a b i h => ?_⟩
  obtain ⟨k, rfl, rfl⟩ := decodeTriple_eq_ok_iff.1 h
  exact encode_build_isPrefix k a b

/-- Settles O3: the decoder refuses a byte of no row, which is then the first fault of the step; that the listed ranges
are the complement of the 13 values is arithmetic on the byte's number. -/
theorem opcodesOutsideTheTableAreIllegal : Obligations.OpcodesOutsideTheTableAreIllegal := by
  refine ⟨fun op a b hop => decodeTriple_of_not_mem hop a b,
    fun s op a b hr hs hop => step_of_firstFault hr (firstFault_of_shows_not_mem hs hop), fun op => ?_, ?_⟩
  · simp only [tableOpcodes, List.mem_cons, List.not_mem_nil, or_false, ← BitVec.toNat_inj, BitVec.le_def,
      BitVec.reduceToNat]
    omega
  · exact length_filter_range_not_mem (l := tableOpcodes) (by decide)

/-- Settles O8: the operand check finds the bad byte, A before B, and then `exec` raises that fault. -/
theorem badRegisterIndexFaults : Obligations.BadRegisterIndexFaults := by
  refine ⟨fun s a b ha i hi => exec_of_operandFault s ?_, fun s a b ha hb i hi => exec_of_operandFault s ?_⟩
  · have hA : regFault a = some (badReg a) := regFault_of_ge ha
    revert i
    simp [operandFault, hA, badReg]
  · have hA : regFault a = none := regFault_of_lt ha
    have hB : regFault b = some (badReg b) := regFault_of_ge hb
    revert i
    simp [operandFault, hA, hB, badReg]

/-- Settles O2: row by row what the kind of that row builds, and the bytes of its encoding. -/
theorem opcodeMapRows : Obligations.OpcodeMapRows := by
  intro a b
  have row (k : Kind) {bytes : List Byte} (h : encode (k.build a b) = bytes) :
      decodeTriple k.opcode a b = .ok (k.build a b) ∧ encode (k.build a b) = bytes :=
    ⟨decodeTriple_opcode k a b, h⟩
  exact ⟨row .hlt rfl, row .ret rfl, row .push rfl, row .pop rfl, row .prn rfl, row .call rfl, row .jmp rfl,
    row .jeq rfl, row .jne rfl, row .ldi rfl, row .add rfl, row .mul rfl, row .cmp rfl,
    fun _ _ => mem_tableOpcodes_of_decodeTriple⟩

/-- Settles O4: HLT and RET build from no operand byte and format R from A alone; the three reads of the fetch come
before anything the decoder decides. -/
theorem unusedOperandBytesAreIgnored : Obligations.UnusedOperandBytesAreIgnored := by
  refine ⟨fun op hop a b a' b' => ?_, fun op hop a b b' => ?_, decodeTriple_opcode .jmp, fun s op a b hr hs => ?_,
    fetchFaultClause_holds⟩
  · obtain rfl | rfl : op = 0x01 ∨ op = 0x11 := by simpa using hop
    · exact (decodeTriple_opcode .hlt a b).trans (decodeTriple_opcode .hlt a' b').symm
    · exact (decodeTriple_opcode .ret a b).trans (decodeTriple_opcode .ret a' b').symm
  · obtain ⟨k, rfl, hk⟩ := exists_kind_of_mem_formatROpcodes hop
    rw [decodeTriple_opcode, decodeTriple_opcode, Kind.build_of_format_r hk a b b']
  · rw [take_stepTransactions_of_shows hr hs, fetchReads_of_shows hs]
end

section
/-!
PROOFS. The four phases of a step: what fetch and decode hand on, and that from `Running` every step has a next state
(spec/40_step_cycle.md R70 to R77).
-/

open Sys2Proof Sys2Proof.Machine

namespace Sys2Proof.Machine

variable {s t : State} {i : Instr} {x : Fetched}

/-! ### Fetch, then decode -/

theorem fetchDecode_of_fetch_error {f : FaultValue} (hf : fetch s = .error f) : fetchDecode s = .error f := by
  simp only [fetchDecode, hf]

theorem fetchDecode_of_decode_error {e : DecodeError} (hx : fetch s = .ok x)
    (hd : decodeTriple x.op x.a x.b = .error e) : fetchDecode s = .error (decodeFault s.pc e) := by
  simp only [fetchDecode, hx, hd]

theorem fetchDecode_of_decode_ok (hx : fetch s = .ok x) (hd : decodeTriple x.op x.a x.b = .ok i) :
    fetchDecode s = .ok i := by
  simp only [fetchDecode, hx, hd]

/-- A fetch past the limit makes no memory transaction (R71, R155). -/
theorem stepTransactions_of_gt (hr : s.run = .running) (h : 253 < s.pc.toNat) : stepTransactions s = [] := by
  simp only [stepTransactions, stopReason_eq_none.2 hr, fetch_of_gt h]

/-! ### Operand check, then execute -/

theorem regFault_or_eq_none_iff {a b : Byte} :
    (regFault a).or (regFault b) = none ↔ a.toNat < 8 ∧ b.toNat < 8 := by
  rw [Option.or_eq_none_iff, regFault_eq_none_iff, regFault_eq_none_iff]

/-- Once the operand check has passed, every instruction completes from every state (R76). -/
theorem exists_completes (s : State) (hok : operandFault i = none) : ∃ t, Completes i s t := by
  cases i with
  | hlt => exact ⟨_, .hlt⟩
  | ret => exact ⟨_, .ret⟩
  | push => exact ⟨_, .push (regFault_eq_none_iff.1 hok)⟩
  | pop => exact ⟨_, .pop (regFault_eq_none_iff.1 hok)⟩
  | prn => exact ⟨_, .prn (regFault_eq_none_iff.1 hok)⟩
  | call => exact ⟨_, .call (regFault_eq_none_iff.1 hok)⟩
  | jmp => exact ⟨_, .jmp (regFault_eq_none_iff.1 hok)⟩
  | jeq =>
    cases hE : s.flags.e with
    | true => exact ⟨_, .jeqTaken (regFault_eq_none_iff.1 hok) hE⟩
    | false => exact ⟨_, .jeqUntaken (regFault_eq_none_iff.1 hok) hE⟩
  | jne =>
    cases hE : s.flags.e with
    | true => exact ⟨_, .jneUntaken (regFault_eq_none_iff.1 hok) hE⟩
    | false => exact ⟨_, .jneTaken (regFault_eq_none_iff.1 hok) hE⟩
  | ldi => exact ⟨_, .ldi (regFault_eq_none_iff.1 hok)⟩
  | add =>
    obtain ⟨ha, hb⟩ := regFault_or_eq_none_iff.1 hok
    exact ⟨_, .add ha hb⟩
  | mul =>
    obtain ⟨ha, hb⟩ := regFault_or_eq_none_iff.1 hok
    exact ⟨_, .mul ha hb⟩
  | cmp =>
    obtain ⟨ha, hb⟩ := regFault_or_eq_none_iff.1 hok
    exact ⟨_, .cmp ha hb⟩

/-- No instruction raises a fault during execute (R76). -/
theorem Completes.run_ne_faulted (h : Completes i s t) (hr : s.run = .running) (f : FaultValue) :
    t.run ≠ .faulted f := by
  rw [h.run_eq, hr]
  split <;> simp

theorem Completes.run_eq_halted_iff (h : Completes i s t) (hr : s.run = .running) : t.run = .halted ↔ i = .hlt := by
  simp [h.run_eq, hr]

/-! ### The step -/

/-- A step is taken exactly from `Running`: there either a phase before execute finds a fault, or the instruction
completes (R70, R77). -/
theorem exists_step_eq_next_iff : (∃ t, step s = .next t) ↔ s.run = .running := by
  refine ⟨fun ⟨_, h⟩ => (step_eq_next_iff.1 h).1, fun hr => ?_⟩
  cases hf : firstFault s with
  | some f => exact ⟨_, step_of_firstFault hr hf⟩
  | none =>
    cases hd : fetchDecode s with
    | error f => cases (firstFault_of_error hd).symm.trans hf
    | ok i =>
      obtain ⟨t, hc⟩ := exists_completes s ((firstFault_of_ok hd).symm.trans hf)
      exact ⟨t, step_of_completes hr hd hc⟩

end Sys2Proof.Machine

/-- Settles O7: a fault of fetch, decode or operand check is the first fault of the step; with none of them the decoded
instruction completes, and of those that complete HLT alone changes the run state. -/
theorem stepIsTakenExactlyWhenRunningInFourPhases : Obligations.StepIsTakenExactlyWhenRunningInFourPhases := by
  refine ⟨fun s => exists_step_eq_next_iff, fun s f hr hf => ?_, fun s x e hr hx hd => ?_,
    fun s x i f hr hx hd hf => ?_, fun s x i hr hx hd hok => ?_⟩
  · exact step_of_firstFault hr (firstFault_of_error (fetchDecode_of_fetch_error hf))
  · exact step_of_firstFault hr (firstFault_of_error (fetchDecode_of_decode_error hx hd))
  · exact step_of_firstFault hr ((firstFault_of_ok (fetchDecode_of_decode_ok hx hd)).trans hf)
  · obtain ⟨t, hc⟩ := exists_completes s hok
    exact ⟨t, step_of_completes hr (fetchDecode_of_decode_ok hx hd) hc, hc.exec_eq, hc.run_ne_faulted hr,
      hc.run_eq_halted_iff hr⟩

/-- Settles O5: the triple that stands at `pc` is what fetch and decode hand to `exec`. -/
theorem stepRunsTheDecodedInstruction : Obligations.StepRunsTheDecodedInstruction :=
  fun _ _ _ _ _ hr hs hd => step_eq_exec_of_shows hr hs hd

/-- Settles O6: past the limit the bounds check is the first fault and stands before the reads; at or below it the reads
are of the cells `pc`, `pc + 1`, `pc + 2`. -/
theorem fetchFaultsExactlyPastTheLimit : Obligations.FetchFaultsExactlyPastTheLimit :=
  ⟨fun s hr h => ⟨fetchFaultClause_holds s hr h, stepTransactions_of_gt hr h⟩, fun _ h => fetch_eq_cells h⟩
end

section
/-!
PROOFS. HLT and PRN: each is its rule of `Completes`, and what that rule's state holds is read off by the laws of
`State.halt`, `State.emit` and `State.advance` (spec/41_system.md R90, R92).
-/

open Sys2Proof Sys2Proof.Machine

/-- Settles O28: HLT completes in every state by halting, which keeps every part but the run state. -/
theorem hltHalts : Obligations.HltHalts := by
  refine ⟨decodeTriple_opcode .hlt, fetchFaultClause_holds, fun s => ⟨s.halt, Completes.hlt.exec_eq, ?_⟩⟩
  simp [SameRegs]

/-- Settles O29: with a legal operand PRN completes by emitting the register's value, then advancing `pc` past its two
bytes; the one writes the output alone, the other `pc` alone. -/
theorem prnEmitsTheRegister : Obligations.PrnEmitsTheRegister := by
  refine fun s a ha => ⟨(s.emit (s.reg ⟨a.toNat, ha⟩)).advance 2, (Completes.prn ha).exec_eq, ?_⟩
  simp [SameRegs]
end

section
/-!
PROOFS. The stack (spec/42_stack.md): where `sp` goes, what PUSH and POP leave unchanged, and a POP fetched right after
a PUSH. Each instruction is its rule of `Completes`.
-/

open Sys2Proof Sys2Proof.Machine

namespace Sys2Proof.Machine

variable {s t u : State} {a b op : Byte}

/-! ### The two directions of `sp` (R99, decision D5) -/

theorem byte_sub_one_toNat (v : Byte) : (v - 1).toNat = (v.toNat + 255) % 256 := by bv_omega

theorem State.pushAddr_toNat (s : State) : s.pushAddr.toNat = (s.sp.toNat + 1) % 256 := BitVec.toNat_add s.sp 1

theorem State.callAddr_toNat (s : State) : s.callAddr.toNat = (s.sp.toNat + 255) % 256 := byte_sub_one_toNat s.sp

/-! ### Frames -/

theorem State.reg_setReg_of_ne (s : State) {r q : RegIdx} (v : Byte) (h : q ≠ r) : (s.setReg r v).reg q = s.reg q := by
  rw [State.reg_setReg, if_neg h.symm]

theorem sameMemBut_of_mem_eq_write {x : Addr} {v : Byte} (hm : t.mem = s.mem.write x v) : SameMemBut x s t :=
  fun y hy => by rw [hm, Memory.read_write_other s.mem v hy]

theorem cell_of_mem_eq_write_of_ne {x : Addr} {v : Byte} {n : Nat} (hm : t.mem = s.mem.write x v) (hn : n < 256)
    (hx : x.toNat ≠ n) : t.cell n = s.cell n := by
  rw [cell_of_mem_eq_write hm, if_neg]
  rintro rfl
  exact hx (Nat.mod_eq_of_lt hn)

/-! ### PUSH, then POP (R104) -/

/-- The instruction that stands right after a PUSH stands at the next `pc`, unless its opcode or operand cell is the one
the PUSH stored. -/
theorem Completes.shows_after_push (h : Completes (.push a) s t) (hpc : s.pc.toNat ≤ 251)
    (hop : s.cell (s.pc.toNat + 2) = op) (hb : s.cell (s.pc.toNat + 3) = b)
    (hop_kept : s.pushAddr.toNat ≠ s.pc.toNat + 2) (hb_kept : s.pushAddr.toNat ≠ s.pc.toNat + 3) :
    t.Shows op b (t.cell (s.pc.toNat + 4)) := by
  have hnext : t.pc.toNat = s.pc.toNat + 2 := by rw [h.pc_eq_add_two (.inl rfl), pc_add_two_toNat (by omega)]
  have hkept {n : Nat} (hn : n < 256) (hx : s.pushAddr.toNat ≠ n) : t.cell n = s.cell n := by
    cases h
    exact cell_of_mem_eq_write_of_ne rfl hn hx
  constructor
  · omega
  · rw [hnext, hkept (by omega) hop_kept, hop]
  · rw [hnext, hkept (by omega) hb_kept, hb]
  · rw [hnext]

/-- A POP from the state a PUSH leaves moves the pushed register's value and undoes the move of `sp`. -/
theorem Completes.pop_after_push (hpush : Completes (.push a) s t) (hpop : Completes (.pop b) t u) (ha : a.toNat < 8)
    (hb : b.toNat < 8) :
    u.reg ⟨b.toNat, hb⟩ = s.reg ⟨a.toNat, ha⟩ ∧ SameRegsBut ⟨b.toNat, hb⟩ s u ∧ u.sp = s.sp := by
  cases hpush
  cases hpop
  refine ⟨?_, fun q hq => ?_, ?_⟩
  · simp [State.stackTop]
  · exact State.reg_setReg_of_ne _ _ hq
  · exact BitVec.add_sub_cancel s.sp 1

end Sys2Proof.Machine

/-- Settles O30: with a legal operand PUSH completes by one store at `sp + 1`, then an advance of `pc`. -/
theorem pushStoresAtTheNewStackPointer : Obligations.PushStoresAtTheNewStackPointer := by
  refine fun s a ha => ⟨(s.storeAtNewSp s.pushAddr (s.reg ⟨a.toNat, ha⟩)).advance 2, (Completes.push ha).exec_eq,
    s.pushAddr_toNat, rfl, ?_, sameMemBut_of_mem_eq_write rfl, ?_⟩
  · simp
  · simp [SameRegs]

/-- Settles O31: with a legal operand POP completes by a write of its register from the cell at `sp`, then the moves of
`sp` and `pc`. -/
theorem popLoadsFromTheOldStackPointer : Obligations.PopLoadsFromTheOldStackPointer := by
  refine fun s a ha => ⟨((s.setReg ⟨a.toNat, ha⟩ s.stackTop).setSp (s.sp - 1)).advance 2, (Completes.pop ha).exec_eq,
    ?_, byte_sub_one_toNat s.sp, rfl, fun q hq => ?_, ?_⟩
  · simp [State.stackTop]
  · exact State.reg_setReg_of_ne s _ hq
  · simp [SameMem]

/-- Settles O42: the first step completes the PUSH, after which the POP still stands at `pc`, so the second step completes
the POP from the state the PUSH left. -/
theorem pushThenPopRoundTrip : Obligations.PushThenPopRoundTrip := by
  intro s a b ha hb hrun hpc hpush_op ha_cell hpop_op hb_cell hop_kept hb_kept
  obtain ⟨t, hpush⟩ := exists_completes (i := .push a) s (regFault_of_lt ha)
  obtain ⟨u, hpop⟩ := exists_completes (i := .pop b) t (regFault_of_lt hb)
  have hpush_shown : s.Shows 0x45 a 0x46 := ⟨by omega, hpush_op, ha_cell, hpop_op⟩
  have hpop_shown := hpush.shows_after_push hpc hpop_op hb_cell hop_kept hb_kept
  have hrun' : t.run = .running := hpush.run_eq.trans hrun
  have hpc' : t.pc = s.pc + 2 := hpush.pc_eq_add_two (.inl rfl)
  obtain ⟨hreg, hregs, hsp⟩ := hpush.pop_after_push hpop ha hb
  refine ⟨t, u, ?_, ?_, hreg, hregs, hsp, ?_, hpop.run_eq.trans hrun'⟩
  · exact (step_eq_exec_of_shows hrun hpush_shown (decodeTriple_opcode .push a _)).trans hpush.exec_eq
  · exact (step_eq_exec_of_shows hrun' hpop_shown (decodeTriple_opcode .pop b _)).trans hpop.exec_eq
  · calc u.pc.toNat = (t.pc + 2).toNat := by rw [hpop.pc_eq_add_two (.inr (.inl rfl))]
      _ = t.pc.toNat + 2 := pc_add_two_toNat hpop_shown.pc_le
      _ = s.pc.toNat + 4 := by rw [hpc', pc_add_two_toNat hpush_shown.pc_le]

/-- Settles O41: PUSH and CALL store at the address they move `sp` to, one up and one down; POP and RET read at the old
`sp`, then move it against them. -/
theorem stackDirections : Obligations.StackDirections := by
  intro s a ha
  obtain ⟨p, hpush, hup, hsp, hstored, -⟩ := pushStoresAtTheNewStackPointer s a ha
  obtain ⟨q, hpop, hloaded, hdown, -⟩ := popLoadsFromTheOldStackPointer s a ha
  refine ⟨p, q, _, _, hpush, hsp ▸ hup, hsp ▸ hstored, hpop, hloaded, hdown, (Completes.call ha).exec_eq,
    s.callAddr_toNat, ?_, Completes.ret.exec_eq, rfl, BitVec.toNat_add s.sp 1⟩
  exact Memory.read_write_same s.mem s.callAddr s.returnAddr
end

section
/-!
PROOFS. Control transfer (spec/43_control_transfer.md): where each jump goes and what it leaves unchanged, a RET after a
CALL, and a conditional jump after a CMP. Each instruction is its rule of `Completes`.
-/

open Sys2Proof Sys2Proof.Machine

namespace Sys2Proof.Machine

variable {i : Instr} {s t u v : State} {a b : Byte}

/-! ### JMP, JEQ and JNE -/

/-- A jump, taken or not, changes `pc` alone (R116, R118, R120). -/
theorem Completes.jump_frame (h : Completes i s t) (hi : i.kind = .jmp ∨ i.kind = .jeq ∨ i.kind = .jne) :
    SameRegs s t ∧ t.sp = s.sp ∧ t.flags = s.flags ∧ t.run = s.run ∧ t.mem = s.mem ∧ t.out = s.out := by
  cases h with
  | jmp | jeqTaken | jeqUntaken | jneTaken | jneUntaken => exact ⟨fun _ => rfl, rfl, rfl, rfl, rfl, rfl⟩
  | _ => simp [Instr.kind] at hi

theorem Completes.jeq_pc (h : Completes (.jeq a) s t) (ha : a.toNat < 8) :
    t.pc = if s.flags.e then zext9 (s.reg ⟨a.toNat, ha⟩) else s.pc + 2 := by
  cases h with
  | jeqTaken _ he => simp [he]
  | jeqUntaken _ he => simp [he]

theorem Completes.jne_pc (h : Completes (.jne a) s t) (ha : a.toNat < 8) :
    t.pc = if s.flags.e then s.pc + 2 else zext9 (s.reg ⟨a.toNat, ha⟩) := by
  cases h with
  | jneTaken _ he => simp [he]
  | jneUntaken _ he => simp [he]

/-! ### CALL, then RET (R110, R113, R114) -/

/-- Below the fetch limit the byte CALL stores is the whole of `pc + 2`. -/
theorem State.returnAddr_toNat (h : s.pc.toNat ≤ 253) : s.returnAddr.toNat = s.pc.toNat + 2 := by
  rw [State.returnAddr, BitVec.toNat_setWidth, pc_add_two_toNat h]
  omega

/-- A RET that finds `sp` and the saved cell as a CALL left them takes the CALL's return address and undoes its move of
`sp`. -/
theorem Completes.ret_after_call (hcall : Completes (.call a) s t) (hret : Completes .ret u v) (hsp : u.sp = t.sp)
    (hsaved : u.mem.read t.sp = t.mem.read t.sp) : v.pc = zext9 s.returnAddr ∧ v.sp = s.sp := by
  cases hret
  have htop : u.stackTop = t.mem.read t.sp := by rw [State.stackTop, hsp, hsaved]
  cases hcall
  constructor
  · simp [htop]
  · simp [hsp, State.callAddr]

/-! ### CMP, then JEQ or JNE (R121) -/

theorem aluCompare_of_lt (h : a < b) : aluCompare a b = { e := false, l := true, g := false } := by
  have hlt : a.toNat < b.toNat := h
  simp [aluCompare, hlt, hlt.ne, hlt.le]

theorem aluCompare_self (a : Byte) : aluCompare a a = { e := true, l := false, g := false } := by
  simp [aluCompare]

theorem aluCompare_of_gt (h : b < a) : aluCompare a b = { e := false, l := false, g := true } := by
  have hgt : b.toNat < a.toNat := h
  simp [aluCompare, hgt, hgt.ne', hgt.le]

/-- CMP leaves the comparison of its operands in the flags, whatever they were (R139, decision D7). -/
theorem Completes.cmp_flags (h : Completes (.cmp a b) s t) (ha : a.toNat < 8) (hb : b.toNat < 8) :
    t.flags = aluCompare (s.reg ⟨a.toNat, ha⟩) (s.reg ⟨b.toNat, hb⟩) := by
  cases h
  rw [State.aluStep_flags, aluFlags_cmp]

theorem Completes.cmp_sameRegs (h : Completes (.cmp a b) s t) : SameRegs s t := by
  cases h
  exact fun _ => rfl

end Sys2Proof.Machine

/-- Settles O32: with a legal operand CALL completes by one store of the return address at `sp - 1`, then the jump. -/
theorem callSavesTheReturnAddressAndJumps : Obligations.CallSavesTheReturnAddressAndJumps := by
  intro s a ha
  have hsaved : (s.mem.write s.callAddr s.returnAddr).read s.callAddr = s.returnAddr := Memory.read_write_same _ _ _
  refine ⟨(s.storeAtNewSp s.callAddr s.returnAddr).jump (s.reg ⟨a.toNat, ha⟩), (Completes.call ha).exec_eq,
    s.callAddr_toNat, rfl, hsaved, fun hpc => ?_, sameMemBut_of_mem_eq_write rfl, rfl, ?_⟩
  · exact (congrArg BitVec.toNat hsaved).trans (State.returnAddr_toNat hpc)
  · simp [SameRegs]

/-- Settles O43: the CALL completes at its target, and from any state that kept `sp` and the saved cell a RET completes
at the return address, which below the fetch limit is the whole of `pc + 2`. -/
theorem callThenRetRoundTrip : Obligations.CallThenRetRoundTrip := by
  intro s a ha hpc
  have hcall : Completes (.call a) s _ := .call ha
  refine ⟨_, hcall.exec_eq, rfl, fun u hsp hsaved => ?_⟩
  obtain ⟨hret_pc, hret_sp⟩ := hcall.ret_after_call .ret hsp hsaved
  refine ⟨_, Completes.ret.exec_eq, ?_, hret_sp⟩
  rw [hret_pc, zext9_toNat, State.returnAddr_toNat hpc]

/-- Settles O44: the CMP leaves its comparison in the flags and keeps the registers, so each jump goes by the comparison
and, untaken, ends past the three bytes of the CMP and its own two. -/
theorem compareThenBranch : Obligations.CompareThenBranch := by
  intro s a b c ha hb hc
  obtain ⟨t, hcmp⟩ := exists_completes (i := .cmp a b) s (regFault_or_eq_none_iff.2 ⟨ha, hb⟩)
  obtain ⟨eq, hjeq⟩ := exists_completes (i := .jeq c) t (regFault_of_lt hc)
  obtain ⟨ne, hjne⟩ := exists_completes (i := .jne c) t (regFault_of_lt hc)
  have hflags := hcmp.cmp_flags ha hb
  have huntaken : t.pc + 2 = s.pc + 5 := by
    rw [hcmp.pc_eq_add_three (.inr (.inr (.inr rfl))), BitVec.add_assoc]; rfl
  have heq_pc : eq.pc = if t.flags.e then zext9 (s.reg ⟨c.toNat, hc⟩) else s.pc + 5 := by
    rw [hjeq.jeq_pc hc, hcmp.cmp_sameRegs, huntaken]
  have hne_pc : ne.pc = if t.flags.e then s.pc + 5 else zext9 (s.reg ⟨c.toNat, hc⟩) := by
    rw [hjne.jne_pc hc, hcmp.cmp_sameRegs, huntaken]
  refine ⟨t, eq, ne, hcmp.exec_eq, hjeq.exec_eq, hjne.exec_eq, fun hlt => ?_, fun heq => ?_, fun hgt => ?_⟩
  · rw [hne_pc, heq_pc, hflags, aluCompare_of_lt hlt]
    exact ⟨rfl, rfl, rfl⟩
  · rw [hne_pc, heq_pc, hflags, heq, aluCompare_self]
    exact ⟨rfl, rfl, rfl⟩
  · rw [hne_pc, heq_pc, hflags, aluCompare_of_gt hgt]
    exact ⟨rfl, rfl, rfl⟩

/-- Settles O33: RET completes in every state by the read at the old `sp`, the move of `sp`, then the jump; none of them
writes memory or a register. -/
theorem retJumpsToTheSavedAddress : Obligations.RetJumpsToTheSavedAddress := by
  refine fun s => ⟨(s.setSp (s.sp + 1)).jump s.stackTop, Completes.ret.exec_eq, rfl, BitVec.toNat_add s.sp 1, ?_⟩
  simp [SameRegs, SameMem]

/-- Settles O34: a bad operand byte fails the check before JMP runs; with a legal one JMP completes by the jump
alone. -/
theorem jmpJumpsToTheRegister : Obligations.JmpJumpsToTheRegister := by
  refine ⟨decodeTriple_opcode .jmp, fetchFaultClause_holds, fun s a ha => ?_, fun s a ha => ?_⟩
  · exact exec_of_operandFault s (regFault_of_ge ha)
  · exact ⟨_, (Completes.jmp ha).exec_eq, rfl, (Completes.jmp ha).jump_frame (.inl rfl)⟩

/-- Settles O35: with a legal operand JEQ completes, with the `pc` that `E` decides. -/
theorem jeqJumpsIfEqual : Obligations.JeqJumpsIfEqual := by
  intro s a ha
  obtain ⟨t, h⟩ := exists_completes (i := .jeq a) s (regFault_of_lt ha)
  refine ⟨t, h.exec_eq, fun he => ?_, fun he => ?_, h.jump_frame (.inr (.inl rfl))⟩
  · rw [h.jeq_pc ha, if_pos he]
  · rw [h.jeq_pc ha, if_neg (Bool.eq_false_iff.1 he)]

/-- Settles O36: with a legal operand JNE completes, with the `pc` that `E` decides the other way round. -/
theorem jneJumpsIfNotEqual : Obligations.JneJumpsIfNotEqual := by
  intro s a ha
  obtain ⟨t, h⟩ := exists_completes (i := .jne a) s (regFault_of_lt ha)
  refine ⟨t, h.exec_eq, fun he => ?_, fun he => ?_, h.jump_frame (.inr (.inr rfl))⟩
  · rw [h.jne_pc ha, if_neg (Bool.eq_false_iff.1 he)]
  · rw [h.jne_pc ha, if_pos he]
end

section
/-!
PROOFS. LDI (spec/44_load_immediate.md R130): a bad destination fails the operand check; with a legal one the
instruction is its rule of `Completes`, a write of one register, then an advance of `pc`.
-/

open Sys2Proof Sys2Proof.Machine

/-- Settles O37: the immediate is never checked, so the operand check on A alone separates the fault from the
completion; the write of the register touches no other part, and the advance `pc` alone. -/
theorem ldiLoadsTheImmediate : Obligations.LdiLoadsTheImmediate := by
  refine ⟨decodeTriple_opcode .ldi, fetchFaultClause_holds, fun s a b ha => ?_, fun s a b ha => ?_⟩
  · exact exec_of_operandFault s (regFault_of_ge ha)
  · refine ⟨(s.setReg ⟨a.toNat, ha⟩ b).advance 3, (Completes.ldi ha).exec_eq, ?_, rfl, fun q hq => ?_, ?_⟩
    · exact State.reg_setReg_same s ⟨a.toNat, ha⟩ b
    · exact State.reg_setReg_of_ne s b hq
    · simp
end

section
/-!
PROOFS. ADD, MUL and CMP (spec/45_alu.md): each is the one ALU step with its own operation, so the result that reaches
register A and the frame are said once for the step.
-/

open Sys2Proof Sys2Proof.Machine

namespace Sys2Proof.Machine

variable {op : AluOp} {s t : State} {a b v : Byte} {ra rb : RegIdx}

/-! ### ADD and MUL (R135, R137) -/

/-- An arithmetic result reaches register A, also when `ra` and `rb` are one register. -/
theorem State.aluStep_reg_same (h : aluResult op (s.reg ra) (s.reg rb) = some v) :
    (s.aluStep op ra rb).reg ra = v := by
  rw [State.aluStep_reg, if_pos rfl, h, Option.getD_some]

theorem State.aluStep_sameRegsBut (s : State) (op : AluOp) (ra rb : RegIdx) :
    SameRegsBut ra s (s.aluStep op ra rb) := fun q hq => by
  rw [State.aluStep_reg, if_neg hq.symm]

theorem aluFlags_of_ne_cmp (h : op ≠ .cmp) (old : Flags) (x y : Byte) : aluFlags op old x y = old := by
  cases op with
  | add | mul => rfl
  | cmp => exact absurd rfl h

/-- What ADD and MUL do to every part of the state but register A. -/
theorem State.aluStep_frame (h : op ≠ .cmp) (s : State) (ra rb : RegIdx) :
    (s.aluStep op ra rb).pc = s.pc + 3 ∧ SameRegsBut ra s (s.aluStep op ra rb) ∧
    (s.aluStep op ra rb).sp = s.sp ∧ (s.aluStep op ra rb).flags = s.flags ∧ (s.aluStep op ra rb).run = s.run ∧
    (s.aluStep op ra rb).mem = s.mem ∧ (s.aluStep op ra rb).out = s.out := by
  refine ⟨rfl, s.aluStep_sameRegsBut op ra rb, ?_⟩
  simp [aluFlags_of_ne_cmp h]

theorem State.aluStep_add_reg_toNat (s : State) (ra rb : RegIdx) :
    ((s.aluStep .add ra rb).reg ra).toNat = ((s.reg ra).toNat + (s.reg rb).toNat) % 256 := by
  rw [State.aluStep_reg_same rfl, BitVec.toNat_add]

theorem State.aluStep_mul_reg_toNat (s : State) (ra rb : RegIdx) :
    ((s.aluStep .mul ra rb).reg ra).toNat = ((s.reg ra).toNat * (s.reg rb).toNat) % 256 := by
  rw [State.aluStep_reg_same rfl, BitVec.toNat_mul]

/-! ### CMP (R139, decision D7) -/

theorem aluCompare_e_iff (x y : Byte) : (aluCompare x y).e = true ↔ x.toNat = y.toNat := decide_eq_true_iff

theorem aluCompare_l_iff (x y : Byte) : (aluCompare x y).l = true ↔ x.toNat < y.toNat := decide_eq_true_iff

theorem aluCompare_g_iff (x y : Byte) : (aluCompare x y).g = true ↔ x.toNat > y.toNat := decide_eq_true_iff

/-- CMP changes the flags and `pc` alone. -/
theorem Completes.cmp_frame (h : Completes (.cmp a b) s t) :
    t.pc = s.pc + 3 ∧ SameRegs s t ∧ t.sp = s.sp ∧ t.run = s.run ∧ t.mem = s.mem ∧ t.out = s.out := by
  refine ⟨h.pc_eq_add_three (.inr (.inr (.inr rfl))), h.cmp_sameRegs, ?_⟩
  cases h
  simp

end Sys2Proof.Machine

/-- Settles O40: with legal operands CMP completes with the comparison of the two registers as its flags, whatever they
were, and each bit of the comparison is its own test; the rest is CMP's frame. -/
theorem cmpWritesAllThreeFlags : Obligations.CmpWritesAllThreeFlags := by
  intro s a b ha hb
  obtain ⟨t, h⟩ := exists_completes (i := .cmp a b) s (regFault_or_eq_none_iff.2 ⟨ha, hb⟩)
  refine ⟨t, h.exec_eq, ?_, ?_, ?_, h.flags_count_of_cmp rfl, h.cmp_frame⟩ <;> rw [h.cmp_flags ha hb]
  · exact aluCompare_e_iff _ _
  · exact aluCompare_l_iff _ _
  · exact aluCompare_g_iff _ _

/-- Settles O38: ADD's two faults are those of every two-register instruction (O8); with legal operands it completes by
the ALU step. -/
theorem addWritesTheSumModulo256 : Obligations.AddWritesTheSumModulo256 := by
  obtain ⟨hbadA, hbadB⟩ := badRegisterIndexFaults
  refine ⟨decodeTriple_opcode .add, fetchFaultClause_holds, fun s a b ha => ?_, fun s a b ha hb => ?_,
    fun s a b ha hb => ?_⟩
  · exact hbadA s a b ha (.add a b) (by simp)
  · exact hbadB s a b ha hb (.add a b) (by simp)
  · exact ⟨_, (Completes.add ha hb).exec_eq, State.aluStep_add_reg_toNat s _ _, State.aluStep_frame (by decide) s _ _⟩

/-- Settles O39: MUL's two faults are those of every two-register instruction (O8); with legal operands it completes by
the ALU step. -/
theorem mulWritesTheProductModulo256 : Obligations.MulWritesTheProductModulo256 := by
  obtain ⟨hbadA, hbadB⟩ := badRegisterIndexFaults
  refine ⟨decodeTriple_opcode .mul, fetchFaultClause_holds, fun s a b ha => ?_, fun s a b ha hb => ?_,
    fun s a b ha hb => ?_⟩
  · exact hbadA s a b ha (.mul a b) (by simp)
  · exact hbadB s a b ha hb (.mul a b) (by simp)
  · exact ⟨_, (Completes.mul ha hb).exec_eq, State.aluStep_mul_reg_toNat s _ _, State.aluStep_frame (by decide) s _ _⟩

/-- Settles O47: on values the ALU is addition and multiplication of bytes; with one register named twice the sum is the
double, the product the square, and the comparison that of a value with itself. -/
theorem aluOperations : Obligations.AluOperations := by
  refine ⟨fun x y => ⟨⟨x + y, rfl, BitVec.toNat_add x y⟩, ⟨x * y, rfl, BitVec.toNat_mul x y⟩, rfl⟩, fun s a ha => ?_⟩
  have hcmp : Completes (.cmp a a) s _ := .cmp ha ha
  refine ⟨_, _, _, (Completes.add ha ha).exec_eq, (Completes.mul ha ha).exec_eq, hcmp.exec_eq, ?_, ?_, ?_⟩
  · rw [State.aluStep_add_reg_toNat, two_mul]
  · rw [State.aluStep_mul_reg_toNat, sq]
  · rw [hcmp.cmp_flags ha ha, aluCompare_self]
end

section
/-!
PROOFS. The block's ports (spec/50_interfaces.md R151 to R156): a step's transactions are reads that agree with memory,
followed by the one data access of the instruction that completes, and with its output they are all that the step does
to memory and output; and the codes of the status port.
-/

open Sys2Proof Sys2Proof.Machine

namespace Sys2Proof.Machine

variable {s t : State} {i : Instr}

/-! ### The activity of a step by its phases (R155) -/

theorem exists_stopReason_of_run_ne (h : s.run ≠ .running) : ∃ r, stopReason s = some r :=
  Option.ne_none_iff_exists'.1 (mt stopReason_eq_none.1 h)

theorem stepTransactions_of_run_ne (h : s.run ≠ .running) : stepTransactions s = [] := by
  obtain ⟨r, hstop⟩ := exists_stopReason_of_run_ne h
  simp only [stepTransactions, hstop]

theorem stepOutput_of_run_ne (h : s.run ≠ .running) : stepOutput s = none := by
  obtain ⟨r, hstop⟩ := exists_stopReason_of_run_ne h
  simp only [stepOutput, hstop]

theorem stepOutput_of_fetchDecode_error {f : FaultValue} (hr : s.run = .running) (hd : fetchDecode s = .error f) :
    stepOutput s = none := by
  simp only [stepOutput, stopReason_eq_none.2 hr, hd]

theorem stepOutput_of_fetchDecode_ok (hr : s.run = .running) (hd : fetchDecode s = .ok i) :
    stepOutput s = outputOf i s := by
  simp only [stepOutput, stopReason_eq_none.2 hr, hd]

/-- A fault of the fetch comes before the three reads, a fault of the decoder after them. -/
theorem stepTransactions_of_fetchDecode_error {f : FaultValue} (hr : s.run = .running) (hd : fetchDecode s = .error f) :
    stepTransactions s = [] ∨ stepTransactions s = fetchReads s := by
  cases hx : fetch s with
  | error g => exact .inl (by simp only [stepTransactions, stopReason_eq_none.2 hr, hx])
  | ok x =>
    cases hi : decodeTriple x.op x.a x.b with
    | error e => exact .inr (by simp only [stepTransactions, stopReason_eq_none.2 hr, hx, hi])
    | ok i => cases (fetchDecode_of_decode_ok hx hi).symm.trans hd

theorem stepTransactions_of_fetchDecode_ok (hr : s.run = .running) (hd : fetchDecode s = .ok i) :
    stepTransactions s = fetchReads s ++ (dataAccess i s).toList := by
  cases hx : fetch s with
  | error g => cases (fetchDecode_of_fetch_error hx).symm.trans hd
  | ok x =>
    cases hi : decodeTriple x.op x.a x.b with
    | error e => cases (fetchDecode_of_decode_error hx hi).symm.trans hd
    | ok j =>
      cases (fetchDecode_of_decode_ok hx hi).symm.trans hd
      simp only [stepTransactions, stopReason_eq_none.2 hr, hx, hi]

/-- An instruction with a bad register operand puts nothing on the output port. -/
theorem outputOf_of_operandFault_ne (h : operandFault i ≠ none) : outputOf i s = none := by
  cases i with
  | prn k => simp [outputOf, regidx_eq_none_of_regFault_ne h]
  | _ => rfl

/-- The transactions of a faulting step are the three reads of its fetch, or none. -/
theorem stepTransactions_of_firstFault {f : FaultValue} (hr : s.run = .running) (hf : firstFault s = some f) :
    stepTransactions s = [] ∨ stepTransactions s = fetchReads s := by
  cases hd : fetchDecode s with
  | error g => exact stepTransactions_of_fetchDecode_error hr hd
  | ok i =>
    have hbad : operandFault i ≠ none := by simp [← firstFault_of_ok hd, hf]
    rw [stepTransactions_of_fetchDecode_ok hr hd, dataAccess_of_operandFault_ne hbad]
    exact .inr rfl

theorem stepOutput_of_firstFault {f : FaultValue} (hr : s.run = .running) (hf : firstFault s = some f) :
    stepOutput s = none := by
  cases hd : fetchDecode s with
  | error g => exact stepOutput_of_fetchDecode_error hr hd
  | ok i =>
    have hbad : operandFault i ≠ none := by simp [← firstFault_of_ok hd, hf]
    rw [stepOutput_of_fetchDecode_ok hr hd, outputOf_of_operandFault_ne hbad]

/-! ### The effect of the activity (R152, R153, R156) -/

@[simp] theorem foldl_apply_fetchReads (s : State) (m : Memory) : (fetchReads s).foldl MemTxn.apply m = m := rfl

@[simp] theorem filter_we_fetchReads (s : State) : (fetchReads s).filter MemTxn.we = [] := rfl

@[simp] theorem length_fetchReads (s : State) : (fetchReads s).length = 3 := rfl

theorem agrees_of_mem_fetchReads {x : MemTxn} (h : x ∈ fetchReads s) : x.agrees s.mem = true := by
  simp only [fetchReads, List.mem_cons, List.not_mem_nil, or_false] at h
  obtain rfl | rfl | rfl := h <;> exact beq_self_eq_true _

/-- PUSH and CALL only write, and POP and RET read the top of the stack. -/
theorem agrees_of_dataAccess {x : MemTxn} (h : dataAccess i s = some x) : x.agrees s.mem = true := by
  cases i with
  | push | call =>
    obtain ⟨r, -, rfl⟩ := Option.map_eq_some_iff.1 h
    rfl
  | pop =>
    obtain ⟨r, -, rfl⟩ := Option.map_eq_some_iff.1 h
    exact beq_self_eq_true _
  | ret =>
    cases h
    exact beq_self_eq_true _
  | _ => cases h

/-- Completing changes memory by the instruction's data access and by nothing else (spec decision D3). -/
theorem Completes.mem_eq_foldl_dataAccess (h : Completes i s t) :
    t.mem = (dataAccess i s).toList.foldl MemTxn.apply s.mem := by
  cases h with
  | push ha => rw [dataAccess_push ha]; rfl
  | pop ha => rw [dataAccess_pop ha]; rfl
  | call ha => rw [dataAccess_call ha]; rfl
  | _ => rfl

/-- Completing appends to the output the value on the output port and nothing else. -/
theorem Completes.out_eq_append_outputOf (h : Completes i s t) : t.out = s.out ++ (outputOf i s).toList := by
  cases h with
  | prn ha => simp [outputOf, regidx_of_lt ha]
  | _ => exact (List.append_nil _).symm

/-- In every state the transactions are none, or the three reads of the fetch and at most one access that agrees with
memory. -/
theorem stepTransactions_cases (s : State) : stepTransactions s = [] ∨
    ∃ d : Option MemTxn, stepTransactions s = fetchReads s ++ d.toList ∧ ∀ x ∈ d, x.agrees s.mem = true := by
  by_cases hr : s.run = .running
  · cases hd : fetchDecode s with
    | error f =>
      refine (stepTransactions_of_fetchDecode_error hr hd).imp_right fun h => ⟨none, ?_, nofun⟩
      exact h.trans (List.append_nil _).symm
    | ok i => exact .inr ⟨_, stepTransactions_of_fetchDecode_ok hr hd, fun _ => agrees_of_dataAccess⟩
  · exact .inl (stepTransactions_of_run_ne hr)

theorem agrees_of_mem_stepTransactions {x : MemTxn} (h : x ∈ stepTransactions s) : x.agrees s.mem = true := by
  obtain hnil | ⟨d, hd, hagrees⟩ := stepTransactions_cases s
  · simp [hnil] at h
  · rw [hd, List.mem_append, Option.mem_toList] at h
    exact h.elim agrees_of_mem_fetchReads (hagrees x)

theorem length_stepTransactions_le (s : State) : (stepTransactions s).length ≤ 4 := by
  obtain hnil | ⟨d, hd, -⟩ := stepTransactions_cases s
  · simp [hnil]
  · cases d <;> simp [hd]

theorem length_filter_we_stepTransactions_le (s : State) : ((stepTransactions s).filter MemTxn.we).length ≤ 1 := by
  obtain hnil | ⟨d, hd, -⟩ := stepTransactions_cases s
  · simp [hnil]
  · rw [hd, List.filter_append, filter_we_fetchReads, List.nil_append]
    exact (List.length_filter_le _ _).trans (by cases d <;> simp)

/-- Replaying the step's transactions on memory, and appending its output, gives the memory and output after it (R156). -/
theorem mem_out_eq_of_step (h : step s = .next t) :
    t.mem = (stepTransactions s).foldl MemTxn.apply s.mem ∧ t.out = s.out ++ (stepOutput s).toList := by
  obtain ⟨hr, ⟨f, hf, rfl⟩ | ⟨i, hd, hc⟩⟩ := step_eq_next_iff.1 h
  · rw [stepOutput_of_firstFault hr hf]
    refine ⟨?_, (List.append_nil _).symm⟩
    obtain htxns | htxns := stepTransactions_of_firstFault hr hf <;> rw [htxns] <;> rfl
  · rw [stepTransactions_of_fetchDecode_ok hr hd, stepOutput_of_fetchDecode_ok hr hd, List.foldl_append,
      foldl_apply_fetchReads]
    exact ⟨hc.mem_eq_foldl_dataAccess, hc.out_eq_append_outputOf⟩

/-! ### The status port (R151, R170) -/

theorem State.statusPort_of_running (h : s.run = .running) : s.statusPort =
    { runState := 0, faultKind := 0, faultSpace := none, faultInfo := none, pcOut := s.pc } := by
  simp only [State.statusPort, h]; rfl

theorem State.statusPort_of_halted (h : s.run = .halted) : s.statusPort =
    { runState := 1, faultKind := 0, faultSpace := none, faultInfo := none, pcOut := s.pc } := by
  simp only [State.statusPort, h]; rfl

theorem State.statusPort_of_faulted {f : FaultValue} (h : s.run = .faulted f) : s.statusPort =
    { runState := 2, faultKind := f.kindCode, faultSpace := f.spaceCode, faultInfo := some f.infoCode, pcOut := s.pc } := by
  simp only [State.statusPort, h]; rfl

end Sys2Proof.Machine

/-- Settles O26: a faulting step changes neither memory nor output and only reads, and a completing one adds its own data
access and output; the bounds and the agreement of the reads hold in every state. -/
theorem stepEffectEqualsItsPortActivity : Obligations.StepEffectEqualsItsPortActivity := by
  refine ⟨fun s t h => ?_, fun s h => ⟨stepTransactions_of_run_ne h, stepOutput_of_run_ne h⟩⟩
  obtain ⟨hmem, hout⟩ := mem_out_eq_of_step h
  exact ⟨hmem, hout, fun _ => agrees_of_mem_stepTransactions, length_stepTransactions_le s,
    length_filter_we_stepTransactions_le s⟩

/-- Settles O49: each kind of fault is one value of the fault record that the port codes. -/
theorem statusPortCodes : Obligations.StatusPortCodes := fun _ =>
  ⟨State.statusPort_of_running, State.statusPort_of_halted, fun _ => State.statusPort_of_faulted,
    fun _ => State.statusPort_of_faulted, fun _ _ => State.statusPort_of_faulted⟩
end

section
/-!
PROOFS. Faults (spec/60_exceptions.md): what the first fault of a step is, from the bytes that stand at `pc`, and that
taking it is all that a faulting step does.
-/

open Sys2Proof Sys2Proof.Machine

namespace Sys2Proof.Machine

variable {s t : State} {op a b : Byte} {f : FaultValue}

/-! ### The operand check by formats (R75) -/

/-- `check(format, a, b)` of R77, from the two operand bytes as fetched. `operandFault_build` ties it to the check that
the instructions make. -/
def formatFault (a b : Byte) : Format → Option FaultValue
  | .z => none
  | .r | .ri => regFault a
  | .rr => (regFault a).or (regFault b)

theorem operandFault_build (k : Kind) (a b : Byte) : operandFault (k.build a b) = formatFault a b k.format := by
  cases k <;> rfl

theorem eq_badReg_of_regFault {k : Byte} (h : regFault k = some f) : f = badReg k ∧ 8 ≤ k.toNat := by
  have hk : 8 ≤ k.toNat := not_lt.1 (mt regFault_of_lt (by simp [h]))
  exact ⟨Option.some_inj.1 (h.symm.trans (regFault_of_ge hk)), hk⟩

/-- The check finds nothing but a register index above 7 in one of the two operand bytes. -/
theorem eq_badReg_of_formatFault {fmt : Format} (h : formatFault a b fmt = some f) :
    ∃ k : Byte, f = badReg k ∧ 8 ≤ k.toNat ∧ (k = a ∨ k = b) := by
  have hbyte : regFault a = some f ∨ regFault b = some f := by
    cases fmt with
    | z => cases h
    | r | ri => exact .inl h
    | rr => exact (Option.or_eq_some_iff.1 h).imp_right And.right
  obtain h | h := hbyte
  · obtain ⟨hf, hk⟩ := eq_badReg_of_regFault h
    exact ⟨a, hf, hk, .inl rfl⟩
  · obtain ⟨hf, hk⟩ := eq_badReg_of_regFault h
    exact ⟨b, hf, hk, .inr rfl⟩

/-! ### The first fault of the bytes at `pc` (R174, decision D14) -/

theorem firstFault_of_shows_opcode {k : Kind} (hs : s.Shows k.opcode a b) :
    firstFault s = formatFault a b k.format := by
  have hd : fetchDecode s = .ok (k.build a b) := by rw [fetchDecode_of_shows hs, decodeTriple_opcode]
  rw [firstFault_of_ok hd, operandFault_build]

theorem firstFault_of_shows_format_z (hs : s.Shows op a b) (hop : op = 0x01 ∨ op = 0x11) : firstFault s = none := by
  obtain rfl | rfl := hop
  · exact firstFault_of_shows_opcode (k := .hlt) hs
  · exact firstFault_of_shows_opcode (k := .ret) hs

/-- LDI checks operand A alone, as format R does. -/
theorem firstFault_of_shows_format_r_ri (hs : s.Shows op a b) (hop : op ∈ formatROpcodes ∨ op = 0x82) :
    firstFault s = regFault a := by
  obtain hop | rfl := hop
  · obtain ⟨k, rfl, hk⟩ := exists_kind_of_mem_formatROpcodes hop
    rw [firstFault_of_shows_opcode hs, hk, formatFault]
  · exact firstFault_of_shows_opcode (k := .ldi) hs

theorem firstFault_of_shows_format_rr (hs : s.Shows op a b) (hop : op ∈ formatRROpcodes) :
    firstFault s = (regFault a).or (regFault b) := by
  obtain rfl | rfl | rfl : op = 0xA0 ∨ op = 0xA2 ∨ op = 0xA7 := by simpa [formatRROpcodes] using hop
  · exact firstFault_of_shows_opcode (k := .add) hs
  · exact firstFault_of_shows_opcode (k := .mul) hs
  · exact firstFault_of_shows_opcode (k := .cmp) hs

theorem firstFault_of_shows_bad_a (hs : s.Shows op a b)
    (hop : op ∈ formatROpcodes ∨ op = 0x82 ∨ op ∈ formatRROpcodes) (ha : 8 ≤ a.toNat) :
    firstFault s = some (badReg a) := by
  obtain hop | hop := or_assoc.2 hop
  · rw [firstFault_of_shows_format_r_ri hs hop, regFault_of_ge ha]
  · rw [firstFault_of_shows_format_rr hs hop, regFault_of_ge ha, Option.some_or]

theorem exists_kind_of_mem_tableOpcodes (hop : op ∈ tableOpcodes) : ∃ k : Kind, op = k.opcode := by
  have hrow : lookupOpcode op ≠ none := fun h => (lookupOpcode_eq_none_iff op).1 h (tableOpcodes_eq_map ▸ hop)
  obtain ⟨k, hk⟩ := Option.ne_none_iff_exists'.1 hrow
  exact ⟨k, opcode_of_lookupOpcode hk⟩

/-- A first fault is that of the fetch, or the opcode at `pc` is of no row, or the operands fail the check of its row. -/
theorem firstFault_cases (h : firstFault s = some f) :
    (f = .outOfBounds .mem 256 ∧ 253 < s.pc.toNat) ∨
      ∃ op a b, s.Shows op a b ∧
        ((f = .invalidOpcode op s.pc ∧ op ∉ tableOpcodes) ∨
          ∃ k : Kind, op = k.opcode ∧ formatFault a b k.format = some f) := by
  obtain hgt | hle := lt_or_ge 253 s.pc.toNat
  · exact .inl ⟨Option.some_inj.1 (h.symm.trans (firstFault_of_gt hgt)), hgt⟩
  · have hs : s.Shows (s.cell s.pc.toNat) (s.cell (s.pc.toNat + 1)) (s.cell (s.pc.toNat + 2)) := ⟨hle, rfl, rfl, rfl⟩
    refine .inr ⟨_, _, _, hs, ?_⟩
    by_cases hop : s.cell s.pc.toNat ∈ tableOpcodes
    · obtain ⟨k, hk⟩ := exists_kind_of_mem_tableOpcodes hop
      exact .inr ⟨k, hk, (firstFault_of_shows_opcode (hk ▸ hs)).symm.trans h⟩
    · exact .inl ⟨Option.some_inj.1 (h.symm.trans (firstFault_of_shows_not_mem hs hop)), hop⟩

/-! ### The step that faults (R176, decision D13) -/

/-- A step that ends in `Faulted(f)` found `f` as its first fault, and taking it is all it did. -/
theorem eq_raiseFault_of_step (h : step s = .next t) (hf : t.run = .faulted f) :
    s.run = .running ∧ firstFault s = some f ∧ t = raiseFault f s := by
  obtain ⟨hr, ⟨g, hg, rfl⟩ | ⟨i, -, hc⟩⟩ := step_eq_next_iff.1 h
  · cases hf
    exact ⟨hr, hg, rfl⟩
  · exact absurd hf (hc.run_ne_faulted hr f)

/-- With no first fault a running state steps, and not into a fault. -/
theorem exists_step_of_firstFault_eq_none (hr : s.run = .running) (h : firstFault s = none) :
    ∃ t, step s = .next t ∧ ∀ f, t.run ≠ .faulted f := by
  obtain ⟨t, ht⟩ := exists_step_eq_next_iff.2 hr
  refine ⟨t, ht, fun f hf => ?_⟩
  obtain ⟨-, hsome, -⟩ := eq_raiseFault_of_step ht hf
  cases h.symm.trans hsome

end Sys2Proof.Machine

/-- Settles O9: each row of the order is the first fault of the bytes that stand at `pc`, and a running step takes its
first fault; the last clause is that they have none. -/
theorem faultPriority : Obligations.FaultPriority := by
  refine ⟨fetchFaultClause_holds, fun s op a b hr hs => ⟨fun hop => ?_, fun hop ha => ?_, fun hop ha hb => ?_, ?_⟩⟩
  · exact step_of_firstFault hr (firstFault_of_shows_not_mem hs hop)
  · exact step_of_firstFault hr (firstFault_of_shows_bad_a hs hop ha)
  · refine step_of_firstFault hr ?_
    rw [firstFault_of_shows_format_rr hs hop, regFault_of_lt ha, Option.none_or, regFault_of_ge hb, badReg]
  · intro hlegal
    refine exists_step_of_firstFault_eq_none hr ?_
    obtain hop | hop | ⟨hop, ha⟩ | ⟨hop, hab⟩ := hlegal
    · exact firstFault_of_shows_format_z hs (.inl hop)
    · exact firstFault_of_shows_format_z hs (.inr hop)
    · exact (firstFault_of_shows_format_r_ri hs hop).trans (regFault_of_lt ha)
    · exact (firstFault_of_shows_format_rr hs hop).trans (regFault_or_eq_none_iff.2 hab)

/-- Settles O10: the step was `raiseFault` of its first fault, which writes the run state alone; such a step has no
output and its transactions are the reads of its fetch, or none. -/
theorem faultChangesOnlyTheRunState : Obligations.FaultChangesOnlyTheRunState := by
  intro s t f h hf
  obtain ⟨hr, hfirst, rfl⟩ := eq_raiseFault_of_step h hf
  refine ⟨by simp [SameRegs], stepOutput_of_firstFault hr hfirst, ?_⟩
  obtain htxns | htxns := stepTransactions_of_firstFault hr hfirst <;> rw [htxns] <;> rfl

/-- Settles O11: the fault a step raises is its first fault, which has one of the three shapes. -/
theorem faultRecordShapes : Obligations.FaultRecordShapes := by
  intro s t f h hf
  obtain ⟨-, hfirst, -⟩ := eq_raiseFault_of_step h hf
  obtain hfetch | ⟨op, a, b, ⟨hpc, rfl, rfl, rfl⟩, ⟨hinv, hop⟩ | ⟨k, -, hbad⟩⟩ := firstFault_cases hfirst
  · exact .inl hfetch
  · exact .inr (.inl ⟨_, hinv, rfl, hop, hpc⟩)
  · obtain ⟨v, hv, hge, hbyte⟩ := eq_badReg_of_formatFault hbad
    exact .inr (.inr ⟨v, hv, hge, hbyte, hpc⟩)

/-- Settles O12: a step starts in `Running` alone, and the reset input is a launch over the memory it finds. -/
theorem faultedIsTerminalUntilReset : Obligations.FaultedIsTerminalUntilReset := by
  refine ⟨fun s t f hf h => ?_, fun s => ⟨rfl, rfl⟩, fun s t hmem => congrArg launch hmem⟩
  obtain ⟨hr, -⟩ := step_eq_next_iff.1 h
  cases hr.symm.trans hf
end

section
/-!
PROOFS. The launch and the loader's image (spec/70_reset_and_hazards.md R191, R193), and the stack used in both its
directions (R196). Each stack instruction is one rule for `sp` and one for memory or its register.
-/

open Sys2Proof Sys2Proof.Machine

namespace Sys2Proof.Machine

/-! ### The entry point (R191) -/

/-- Whatever the image, its first three cells stand at `pc` in the launch state. -/
theorem launch_shows (m0 : Memory) : (launch m0).Shows (m0.read 0) (m0.read 1) (m0.read 2) :=
  ⟨Nat.zero_le 253, rfl, rfl, rfl⟩

/-! ### The loader's image (R193, decision D16) -/

theorem Memory.exists_ofProgram_eq_some {bytes : List Byte} (h : bytes.length ≤ 256) :
    ∃ m, Memory.ofProgram bytes = some m := ⟨_, if_pos h⟩

/-- The model's own limit: log entry 8. -/
theorem Memory.ofProgram_eq_none {bytes : List Byte} (h : 256 < bytes.length) : Memory.ofProgram bytes = none :=
  if_neg (not_le.2 h)

/-- One more byte of the listing is one more write, at the next address. -/
theorem Memory.ofProgram_append_singleton {bytes : List Byte} (b : Byte) (h : bytes.length < 256) :
    Memory.ofProgram (bytes ++ [b]) =
      (Memory.ofProgram bytes).map fun m => m.write (BitVec.ofNat 8 bytes.length) b := by
  have hle : (bytes ++ [b]).length ≤ Config.memCells := by simpa [Config.memCells] using h
  rw [ofProgram, if_pos hle, ofProgram, if_pos (show bytes.length ≤ Config.memCells from h.le)]
  simp [List.zipIdx_append]

/-- A cell of the image reads as the byte of the listing at its address, and as 0 past the end of the listing. -/
theorem Memory.read_ofProgram {bytes : List Byte} {m : Memory} (hlen : bytes.length ≤ 256)
    (h : Memory.ofProgram bytes = some m) (x : Addr) : m.read x = bytes.getD x.toNat 0 := by
  induction bytes using List.reverseRecOn generalizing m with
  | nil => cases h; rfl
  | append_singleton bytes b ih =>
    have hlt : bytes.length < 256 := by simpa using hlen
    rw [ofProgram_append_singleton b hlt] at h
    obtain ⟨m', hm', rfl⟩ := Option.map_eq_some_iff.1 h
    have hlast : (BitVec.ofNat 8 bytes.length).toNat = bytes.length := Nat.mod_eq_of_lt hlt
    rw [read_write, ih hlt.le hm']
    split
    · next hx => rw [← hx, hlast, List.getD_append_right _ _ _ _ le_rfl, Nat.sub_self]; rfl
    · next hx =>
      have hne : x.toNat ≠ bytes.length := fun he => hx (BitVec.eq_of_toNat_eq (hlast.trans he.symm))
      obtain hin | hout := lt_or_gt_of_ne hne
      · rw [List.getD_append _ _ _ _ hin]
      · rw [List.getD_eq_default _ _ hout.le, List.getD_eq_default _ _ (by simpa using hout)]

/-! ### The stack in both directions (R99, R196, decision D5) -/

variable {s t : State} {a : Byte}

theorem Completes.push_effect (h : Completes (.push a) s t) (ha : a.toNat < 8) :
    t.sp = s.sp + 1 ∧ t.mem = s.mem.write (s.sp + 1) (s.reg ⟨a.toNat, ha⟩) ∧ SameRegs s t := by
  cases h
  exact ⟨rfl, rfl, fun _ => rfl⟩

theorem Completes.call_effect (h : Completes (.call a) s t) :
    t.sp = s.sp - 1 ∧ t.mem = s.mem.write (s.sp - 1) (low8 (s.pc + 2)) ∧ SameRegs s t := by
  cases h
  exact ⟨rfl, rfl, fun _ => rfl⟩

theorem Completes.ret_effect (h : Completes .ret s t) : t.sp = s.sp + 1 ∧ t.mem = s.mem := by
  cases h
  exact ⟨rfl, rfl⟩

theorem Completes.pop_effect (h : Completes (.pop a) s t) (ha : a.toNat < 8) :
    t.sp = s.sp - 1 ∧ t.mem = s.mem ∧ t.reg ⟨a.toNat, ha⟩ = s.mem.read s.sp := by
  cases h
  exact ⟨rfl, rfl, State.reg_setReg_same s _ _⟩

variable {t1 t2 t3 t4 t5 t6 : State} {b c d e : Byte}

/-- The CALL comes back to the cell of the first PUSH, and the cell of the second stays above it. -/
theorem Completes.call_after_push_push (hpush1 : Completes (.push a) s t1) (hpush2 : Completes (.push b) t1 t2)
    (hcall : Completes (.call c) t2 t3) (ha : a.toNat < 8) (hb : b.toNat < 8) :
    t2.mem.read (s.sp + 1) = s.reg ⟨a.toNat, ha⟩ ∧ t3.mem.read (s.sp + 1) = low8 (t2.pc + 2) ∧
      t3.mem.read (s.sp + 2) = s.reg ⟨b.toNat, hb⟩ ∧ t3.sp = s.sp + 1 := by
  obtain ⟨hsp1, hmem1, hregs1⟩ := hpush1.push_effect ha
  obtain ⟨hsp2, hmem2, -⟩ := hpush2.push_effect hb
  obtain ⟨hsp3, hmem3, -⟩ := hcall.call_effect
  have hup : t1.sp + 1 = s.sp + 2 := by rw [hsp1, BitVec.add_assoc]; rfl
  have hback : t2.sp - 1 = s.sp + 1 := by rw [hsp2, BitVec.add_sub_cancel, hsp1]
  have hne : s.sp + 1 ≠ s.sp + 2 := by bv_omega
  rw [hup] at hmem2
  rw [hback] at hsp3 hmem3
  refine ⟨?_, ?_, ?_, hsp3⟩
  · rw [hmem2, Memory.read_write_other _ _ hne, hmem1, Memory.read_write_same]
  · rw [hmem3, Memory.read_write_same]
  · rw [hmem3, Memory.read_write_other _ _ hne.symm, hmem2, Memory.read_write_same, hregs1]

/-- After a RET the first POP loads the cell above the return address and the second the return address itself. -/
theorem Completes.pop_pop_after_ret (hret : Completes .ret t3 t4) (hpop1 : Completes (.pop d) t4 t5)
    (hpop2 : Completes (.pop e) t5 t6) (hd : d.toNat < 8) (he : e.toNat < 8) :
    t4.sp = t3.sp + 1 ∧ t5.reg ⟨d.toNat, hd⟩ = t3.mem.read (t3.sp + 1) ∧
      t6.reg ⟨e.toNat, he⟩ = t3.mem.read t3.sp ∧ t6.sp = t3.sp - 1 := by
  obtain ⟨hsp4, hmem4⟩ := hret.ret_effect
  obtain ⟨hsp5, hmem5, hreg5⟩ := hpop1.pop_effect hd
  obtain ⟨hsp6, -, hreg6⟩ := hpop2.pop_effect he
  rw [hsp4, BitVec.add_sub_cancel] at hsp5
  refine ⟨hsp4, ?_, ?_, ?_⟩
  · rw [hreg5, hmem4, hsp4]
  · rw [hreg6, hmem5, hmem4, hsp5]
  · rw [hsp6, hsp5]

/-- A PUSH right after a CALL stores at the `sp` the caller had, its top cell. -/
theorem Completes.push_after_call (hcall : Completes (.call a) s t1) (hpush : Completes (.push b) t1 t2)
    (hb : b.toNat < 8) : t2.sp = s.sp ∧ t2.mem.read s.sp = s.reg ⟨b.toNat, hb⟩ := by
  obtain ⟨hsp1, -, hregs1⟩ := hcall.call_effect
  obtain ⟨hsp2, hmem2, -⟩ := hpush.push_effect hb
  rw [hsp1, BitVec.sub_add_cancel] at hsp2 hmem2
  exact ⟨hsp2, by rw [hmem2, Memory.read_write_same, hregs1]⟩

end Sys2Proof.Machine

/-- Settles O46: the CALL stores where the first PUSH did and leaves the second PUSH's cell, so the POPs after the RET
find the second value and the return address; and a PUSH after a CALL stores at the caller's `sp`. -/
theorem mixedStackUseOverwrites : Obligations.MixedStackUseOverwrites := by
  refine ⟨fun s a b c d e ha hb hc hd he => ?_, fun s a b ha hb => ?_⟩
  · obtain ⟨t1, hpush1⟩ := exists_completes (i := .push a) s (regFault_of_lt ha)
    obtain ⟨t2, hpush2⟩ := exists_completes (i := .push b) t1 (regFault_of_lt hb)
    obtain ⟨t3, hcall⟩ := exists_completes (i := .call c) t2 (regFault_of_lt hc)
    obtain ⟨t4, hret⟩ := exists_completes (i := .ret) t3 rfl
    obtain ⟨t5, hpop1⟩ := exists_completes (i := .pop d) t4 (regFault_of_lt hd)
    obtain ⟨t6, hpop2⟩ := exists_completes (i := .pop e) t5 (regFault_of_lt he)
    obtain ⟨hfirst, hsaved, hsecond, hsp3⟩ := hpush1.call_after_push_push hpush2 hcall ha hb
    obtain ⟨hsp4, hreg5, hreg6, hsp6⟩ := hret.pop_pop_after_ret hpop1 hpop2 hd he
    have hup : t3.sp + 1 = s.sp + 2 := by rw [hsp3, BitVec.add_assoc]; rfl
    refine ⟨t1, t2, t3, t4, t5, t6, hpush1.exec_eq, hpush2.exec_eq, hcall.exec_eq, hret.exec_eq, hpop1.exec_eq,
      hpop2.exec_eq, hfirst, hsaved, hsp3, hsp4.trans hup, ?_, ?_, ?_⟩
    · rw [hreg5, hup, hsecond]
    · rw [hreg6, hsp3, hsaved]
    · rw [hsp6, hsp3, BitVec.add_sub_cancel]
  · obtain ⟨t, hcall⟩ := exists_completes (i := .call a) s (regFault_of_lt ha)
    obtain ⟨u, hpush⟩ := exists_completes (i := .push b) t (regFault_of_lt hb)
    exact ⟨t, u, hcall.exec_eq, hpush.exec_eq, hcall.push_after_call hpush hb⟩

/-- Settles O16: with every byte of the listing the image gains one write, at an address no earlier byte was written to;
a cell past the listing is never written. -/
theorem loaderImage : Obligations.LoaderImage := by
  refine ⟨fun bytes hlen => ?_, fun bytes => Memory.ofProgram_eq_none⟩
  obtain ⟨m, hm⟩ := Memory.exists_ofProgram_eq_some hlen
  have hcell {k : Nat} (hk : k < 256) : m.read (BitVec.ofNat 8 k) = bytes.getD k 0 := by
    rw [Memory.read_ofProgram hlen hm, BitVec.toNat_ofNat, Nat.mod_eq_of_lt hk]
  refine ⟨m, hm, Memory.wf_ofProgram hm, fun k hk => ?_, fun k hge hk => ?_⟩
  · rw [hcell (hk.trans_le hlen), List.getD_eq_getElem _ _ hk]
  · rw [hcell hk, List.getD_eq_default _ _ hge]

/-- Settles O14: a launch runs from `pc` 0, and its step begins with the reads of the three cells that stand there. -/
theorem entryPointIsAddressZero : Obligations.EntryPointIsAddressZero := fun m0 =>
  ⟨launch_pc m0, launch_run m0,
    (take_stepTransactions_of_shows (launch_run m0) (launch_shows m0)).trans (fetchReads_of_shows (launch_shows m0))⟩
end
